-- ==== Sys2Proof/Word.lean ====
section
/-! DEFINITION. The data types of the core: bytes, register words, pixels and the header's two tags. -/
namespace Sys2Proof

/-- A byte, bit 7 the most significant (R8). -/
abbrev Byte := BitVec 8

/-- A register of the host's map (R35). -/
abbrev Word := BitVec 32

/-- A pixel: four independent 8-bit channels; all 2^32 values are legal (R100). -/
structure Pixel where
  r : Byte
  g : Byte
  b : Byte
  a : Byte
  deriving DecidableEq, Repr, Inhabited

/-- The channel-count tag (R32). -/
inductive ChannelTag where
  | rgb
  | rgba
  | unknown
  deriving DecidableEq, Repr, Inhabited

/-- The colorspace tag (R32). -/
inductive ColorTag where
  | srgb
  | linear
  | unknown
  deriving DecidableEq, Repr, Inhabited

end Sys2Proof
end

