-- ==== Sys2Proof/Config.lean ====
section
/-! DEFINITION. The open parameters and the free values: what nothing in the spec fixes has no body here. -/
namespace Sys2Proof

/-- `COUNT_W`, the width of the host registers that hold a count or an offset (R7, decision D6). -/
def Config.countW : Nat := 32

/-- FREE VALUE: what byte `a` of IN holds before anything has written it (assumption log 6). -/
opaque Config.unwrittenIn : Nat → Byte

/-- FREE VALUE: what byte `a` of OUT holds before anything has written it (assumption log 6). -/
opaque Config.unwrittenOut : Nat → Byte

/-- FREE VALUE: what pixel `i` of PIN holds before anything has written it (assumption log 6). -/
opaque Config.unwrittenPin : Nat → Pixel

/-- FREE VALUE: what pixel `i` of POUT holds before anything has written it (assumption log 6). -/
opaque Config.unwrittenPout : Nat → Pixel

/-- FREE VALUE: the byte of the `k`-th host read of a buffer byte that is no result (93 #5; assumption log 7). -/
opaque Config.freeByte : Nat → Byte

/-- FREE VALUE: the pixel of the `k`-th host read of a buffer pixel that is no result (93 #5, #6; log 7). -/
opaque Config.freePixel : Nat → Pixel

/-- FREE VALUE: the word of the `k`-th host read of a register that is no result (93 #6; log 7). -/
opaque Config.freeWord : Nat → Word

/-- FREE VALUE: the channel tag the `k`-th host read of DEC_FORMAT shows where it is no result (93 #6; log 7). -/
opaque Config.freeChannels : Nat → ChannelTag

/-- FREE VALUE: the colorspace tag of such a read (93 #6; log 7). -/
opaque Config.freeColorspace : Nat → ColorTag

end Sys2Proof
end

