-- ==== Sys2Proof/Machine/State.lean ====
section
/-! DEFINITION. Everything the spec gives the core, as plain data, and the core after power-on reset. -/
namespace Sys2Proof.Machine

/-- A sparse store of one address space: (index, element) pairs with strictly rising indices, so that equal contents
are equal lists. An unlisted index has no value recorded (assumption log 6). With bytes it is a list of `Host.Cell`. -/
abbrev Memory (α : Type) := List (Nat × α)

/-- The encode engine's sequencer (R25). -/
inductive EncPhase where
  | idle
  | header
  | pixels
  | finish
  | done
  deriving DecidableEq, Repr

/-- The decode engine's sequencer (R30). -/
inductive DecPhase where
  | idle
  | header
  | stream
  | marker
  | doneOk
  | doneErr
  deriving DecidableEq, Repr

/-- NONE and the five error kinds of a decode (R33, R230). -/
inductive DecErr where
  | none
  | headerTooShort
  | invalidMagic
  | truncatedStream
  | unrecognizedOpcode
  | paddingMismatch
  deriving DecidableEq, Repr

/-- A pixel cache: 64 slots, direct-mapped (R21, R28). -/
abbrev Cache := Vector Pixel 64

/-- The encode engine (R21 to R26) and the host registers that configure it (R38 to R40). -/
structure EncEngine where
  /-- `ENC.cache` (R21). -/
  cache : Cache
  /-- `ENC.prev` (R22). -/
  prev : Pixel
  /-- `ENC.run` (R23). -/
  run : Nat
  /-- `ENC.POS` (R24). -/
  pos : Nat
  /-- `ENC.phase` (R25). -/
  phase : EncPhase
  /-- `ENC.OUTLEN` (R26). -/
  outLen : Nat
  /-- `ENC_WIDTH` (R38). -/
  width : Word
  /-- `ENC_HEIGHT` (R38). -/
  height : Word
  /-- `ENC_FORMAT.CHANNELS` (R39). -/
  channels : ChannelTag
  /-- `ENC_FORMAT.COLORSPACE` (R39). -/
  colorspace : ColorTag
  /-- `ENC_COUNT` (R40). -/
  count : Word
  deriving DecidableEq, Repr

/-- The decode engine (R27 to R33) and the host register that configures it (R42). -/
structure DecEngine where
  /-- `DEC.cache` (R28). -/
  cache : Cache
  /-- `DEC.prev` (R29). -/
  prev : Pixel
  /-- `DEC.offset`, the counterpart of a program counter (R27). -/
  offset : Nat
  /-- `DEC.phase` (R30). -/
  phase : DecPhase
  /-- `DEC.PIXCOUNT` (R31). -/
  pixCount : Nat
  /-- `DEC.WIDTH` (R32). -/
  width : Word
  /-- `DEC.HEIGHT` (R32). -/
  height : Word
  /-- `DEC.CHANNELS` (R32). -/
  channels : ChannelTag
  /-- `DEC.COLORSPACE` (R32). -/
  colorspace : ColorTag
  /-- `DEC.ERR` (R33). -/
  err : DecErr
  /-- `DEC.ERROFF` (R33). -/
  errOff : Nat
  /-- `DEC_INLEN` (R42). -/
  inLen : Word
  deriving DecidableEq, Repr

/-- The agents that take steps (R20). -/
inductive Agent where
  | enc
  | dec
  | host
  deriving DecidableEq, Repr

/-- One action of the host (R20, R35, R50, R237, R261). -/
inductive HostAction where
  /-- A read of `size` bytes at a byte offset of the register map. -/
  | readReg (offset size : Nat)
  /-- A write of `size` bytes at a byte offset of the register map. -/
  | writeReg (offset size : Nat) (value : Word)
  | writeIn (a : Nat) (v : Byte)
  | writeOut (a : Nat) (v : Byte)
  | writePin (i : Nat) (p : Pixel)
  | writePout (i : Nat) (p : Pixel)
  /-- A byte of PIN seen as bytes: four to a pixel, in the order red, green, blue, alpha (R53). -/
  | writePinByte (a : Nat) (v : Byte)
  | readIn (a : Nat)
  | readOut (a : Nat)
  | readPin (i : Nat)
  | readPout (i : Nat)
  /-- A byte of POUT seen as bytes, in the order red, green, blue, alpha (R53, decision D4). -/
  | readPoutByte (a : Nat)
  /-- The host places an OUT buffer with room for so many bytes (R261, R265; what it holds is log 19). -/
  | provideOut (room : Nat)
  /-- The host places a POUT buffer with room for so many pixels (R261, R265; what it holds is log 19). -/
  | providePout (room : Nat)
  /-- Power-on reset of the core (R48, R237). -/
  | powerOn
  deriving DecidableEq, Repr

/-- What a read returned to the host. -/
inductive Reply where
  | word (v : Word)
  | byte (v : Byte)
  | pixel (p : Pixel)
  deriving DecidableEq, Repr

/-- The whole machine: the two engines, the four address spaces (R50), the room of the output buffers (R265), and the
model's own fields for the host and the order of turns. -/
structure State where
  enc : EncEngine
  dec : DecEngine
  /-- `IN`. -/
  inBuf : Memory Byte
  /-- `OUT`. -/
  outBuf : Memory Byte
  /-- `PIN`. -/
  pin : Memory Pixel
  /-- `POUT`. -/
  pout : Memory Pixel
  /-- How many bytes the OUT buffer has room for. -/
  outRoom : Nat
  /-- How many pixels the POUT buffer has room for. -/
  poutRoom : Nat
  /-- MODEL'S OWN: the host's actions still to come, the next one first. -/
  pending : List HostAction
  /-- MODEL'S OWN: what the host's reads returned, the newest first. -/
  replies : List Reply
  /-- MODEL'S OWN: whose turn comes next (R20 leaves the order open; assumption log 1). -/
  sched : List Agent
  /-- MODEL'S OWN: how many free values the host's reads have drawn (assumption log 7). -/
  draws : Nat
  deriving DecidableEq, Repr

/-- What stops the machine with a fault. -/
inductive Fault where
  /-- Raised by a HOST turn that writes or re-places a buffer of a BUSY engine: the result would depend on when the
  engine's steps run, and the spec gives none (R62, R264, 93 #8). SAFE: nothing can be proved of such a run. -/
  | bufferRace
  deriving DecidableEq, Repr

/-- What the model refuses by name. -/
inductive Refusal where
  /-- Raised by `exec` only, for an instruction without a meaning; no arm raises it now. SAFE. -/
  | notModelled (mnemonic : String)
  /-- Raised by a HOST turn that accesses the register map at another width than a word, off a word boundary, or at
  0x40 or above: outside the spec's model (R35, 93 #15). SAFE. -/
  | badRegisterAccess
  /-- Raised by a HOST turn that writes START when a launch premise does not hold (R265, 93 #9). SAFE. -/
  | launchPremise
  /-- Raised by a HOST turn that reads a count register whose count does not fit COUNT_W bits (R7, R265, 93 #9). SAFE. -/
  | countTooWide
  deriving DecidableEq, Repr

/-- The encode engine after power-on reset: every map register and phase as R35 and R48 say; the cache, `prev` and
`run`, which R48 leaves unspecified, are zeros (DESIGN CHOICE, unsafe, assumption log 4). -/
def EncEngine.reset : EncEngine :=
  { cache := Vector.replicate 64 ⟨0#8, 0#8, 0#8, 0#8⟩
    prev := ⟨0#8, 0#8, 0#8, 0#8⟩
    run := 0
    pos := 0
    phase := .idle
    outLen := 0
    width := 0#32
    height := 0#32
    channels := .rgb
    colorspace := .srgb
    count := 0#32 }

/-- The decode engine after power-on reset, as `EncEngine.reset` (R35, R48; log 4). -/
def DecEngine.reset : DecEngine :=
  { cache := Vector.replicate 64 ⟨0#8, 0#8, 0#8, 0#8⟩
    prev := ⟨0#8, 0#8, 0#8, 0#8⟩
    offset := 0
    phase := .idle
    pixCount := 0
    width := 0#32
    height := 0#32
    channels := .rgb
    colorspace := .srgb
    err := .none
    errOff := 0
    inLen := 0#32 }

/-- The machine right after reset (R48, R260). Nothing is listed in any buffer, no buffer is placed, and the host has
nothing pending (DESIGN CHOICE for the fields the spec does not reset, log 5). -/
def State.reset : State :=
  { enc := EncEngine.reset
    dec := DecEngine.reset
    inBuf := []
    outBuf := []
    pin := []
    pout := []
    outRoom := 0
    poutRoom := 0
    pending := []
    replies := []
    sched := []
    draws := 0 }

end Sys2Proof.Machine
end

