-- ==== Sys2Proof/Machine/Operands.lean ====
section
/-! DEFINITION. The RGBA8 arithmetic unit (40_arithmetic.md): pure functions of pixels and channel values. -/
namespace Sys2Proof.Machine

/-- `OPAQUE_BLACK`, the seed of the previous-pixel registers (R104). -/
def opaqueBlack : Pixel := ⟨0#8, 0#8, 0#8, 255#8⟩

/-- `TRANSPARENT_BLACK`, the seed of every cache slot (R104). -/
def transparentBlack : Pixel := ⟨0#8, 0#8, 0#8, 0#8⟩

/-- `Delta(a, b) = (i32(a) - i32(b)) rem_t 256`, the truncating remainder (R101). -/
def delta (a b : Byte) : Int := Int.tmod ((a.toNat : Int) - (b.toNat : Int)) 256

/-- A cross delta: a red or blue delta minus the green delta, no remainder (R102). -/
def crossDelta (d dg : Int) : Int := d - dg

/-- The sum the hash reduces (R103). -/
def hashSum (p : Pixel) : Nat := p.r.toNat * 3 + p.g.toNat * 5 + p.b.toNat * 7 + p.a.toNat * 11

/-- `Hash(p)`, the pixel's cache slot (R103). -/
def pixelHash (p : Pixel) : Fin 64 := ⟨hashSum p % 64, Nat.mod_lt _ (by decide)⟩

/-- `WrapAdd(c, d) = (c + d) mod 256` (R106). -/
def wrapAdd (c : Byte) (d : Int) : Byte := BitVec.ofInt 8 ((c.toNat : Int) + d)

/-- The operand form DIFF and LUMA share: three signed deltas added to a pixel lane by lane, alpha kept (R110, R199,
R200). -/
def addDeltas (p : Pixel) (dr dg db : Int) : Pixel :=
  ⟨wrapAdd p.r dr, wrapAdd p.g dg, wrapAdd p.b db, p.a⟩

/-- A pixel in a 32-bit word: red, green, blue, alpha from the top (R46). -/
def pixelWord (p : Pixel) : Word := p.r ++ p.g ++ p.b ++ p.a

/-- The pixel of a 32-bit word (R46). -/
def wordPixel (w : Word) : Pixel :=
  ⟨w.extractLsb' 24 8, w.extractLsb' 16 8, w.extractLsb' 8 8, w.extractLsb' 0 8⟩

/-- Byte `k` of a pixel seen as four bytes: red, green, blue, alpha (R53). -/
def pixelByte (p : Pixel) (k : Nat) : Byte :=
  if k = 0 then p.r else if k = 1 then p.g else if k = 2 then p.b else p.a

/-- The pixel with its byte `k` replaced (R53). -/
def setPixelByte (p : Pixel) (k : Nat) (v : Byte) : Pixel :=
  if k = 0 then { p with r := v } else if k = 1 then { p with g := v }
  else if k = 2 then { p with b := v } else { p with a := v }

end Sys2Proof.Machine
end

