-- ==== Sys2Proof/Syntax.lean ====
section
/-! DEFINITION. The six opcodes, and the lines of the spec's assembler (opcodes and the two frame directives). -/
namespace Sys2Proof

/-- An opcode with its operands as VALUES, not raw fields (R82). One constructor per row of the opcode table. -/
inductive Instr where
  /-- `INDEX i`: the cache slot `i` (R71). -/
  | index (i : Fin 64)
  /-- `DIFF dr, dg, db`: signed deltas from the previous pixel (R72). -/
  | diff (dr dg db : Int)
  /-- `LUMA dg, dr_g, db_g`: the green delta and two cross deltas (R73). -/
  | luma (dg drg dbg : Int)
  /-- `RUN len`: the previous pixel `len` times (R74). -/
  | run (len : Nat)
  /-- `RGB r, g, b`: raw channels, alpha from the previous pixel (R75). -/
  | rgb (r g b : Byte)
  /-- `RGBA r, g, b, a`: raw channels (R76). -/
  | rgba (r g b a : Byte)
  deriving DecidableEq, Repr

/-- A line of the spec's assembler: an opcode, or one of the frame directives HEADER and END (R82). -/
inductive Line where
  | header (w h : Word) (ch : ChannelTag) (cs : ColorTag)
  | op (i : Instr)
  | endMark
  deriving DecidableEq, Repr

end Sys2Proof
end

