-- ==== Sys2Proof/WellFormed.lean ====
section
/-! DEFINITION. The operand ranges of the opcodes (R77), which an assembler of the spec's syntax enforces (R82). -/
namespace Sys2Proof

/-- `lo ≤ x ≤ hi` over the integers (R8). -/
def inRange (lo hi x : Int) : Bool := decide (lo ≤ x) && decide (x ≤ hi)

/-- Every operand is in its field's value range (R77). INDEX, RGB and RGBA operands are in range by their types. -/
def Instr.wellFormed : Instr → Bool
  | .index _ => true
  | .diff dr dg db => inRange (-2) 1 dr && inRange (-2) 1 dg && inRange (-2) 1 db
  | .luma dg drg dbg => inRange (-32) 31 dg && inRange (-8) 7 drg && inRange (-8) 7 dbg
  | .run len => decide (1 ≤ len) && decide (len ≤ 62)
  | .rgb _ _ _ => true
  | .rgba _ _ _ _ => true

/-- A line an assembler accepts (R82). -/
def Line.wellFormed : Line → Bool
  | .header _ _ _ _ => true
  | .op i => i.wellFormed
  | .endMark => true

end Sys2Proof
end

