-- ==== Sys2Proof/Machine/Flags.lean ====
section
/-! DEFINITION. The tests of the arithmetic unit. The core keeps no flags: each is a value used inside one step (R34). -/
namespace Sys2Proof.Machine

/-- `Eq(p, q)`: exact, channel by channel (R105). -/
def pixelEq (p q : Pixel) : Bool := p.r == q.r && p.g == q.g && p.b == q.b && p.a == q.a

/-- `AlphaEq(p, q)` (R105). -/
def alphaEq (p q : Pixel) : Bool := p.a == q.a

/-- `FitsDiff(dr, dg, db)` (R107). -/
def fitsDiff (dr dg db : Int) : Bool := inRange (-2) 1 dr && inRange (-2) 1 dg && inRange (-2) 1 db

/-- `FitsLuma(dg, dr_g, db_g)` (R108). -/
def fitsLuma (dg drg dbg : Int) : Bool := inRange (-32) 31 dg && inRange (-8) 7 drg && inRange (-8) 7 dbg

/-- ENC_STATUS.STATE is BUSY (R37). -/
def encBusy (s : State) : Bool :=
  match s.enc.phase with
  | .idle => false
  | .header => true
  | .pixels => true
  | .finish => true
  | .done => false

/-- DEC_STATUS.STATE is BUSY (R37). -/
def decBusy (s : State) : Bool :=
  match s.dec.phase with
  | .idle => false
  | .header => true
  | .stream => true
  | .marker => true
  | .doneOk => false
  | .doneErr => false

end Sys2Proof.Machine
end

