-- ==== Sys2Proof/Machine/Ops.lean ====
section
/-! DEFINITION. The named operations over memory, the caches and the registers: the primitives of R9. -/
namespace Sys2Proof.Machine

/-- The indices of a store strictly rise: the one canonical form. -/
def Memory.wf {α : Type} : Memory α → Bool
  | [] => true
  | [_] => true
  | (a, _) :: (b, w) :: t => decide (a < b) && Memory.wf ((b, w) :: t)

/-- The element recorded at an index, if any. -/
def Memory.read {α : Type} : Memory α → Nat → Option α
  | [], _ => none
  | (b, w) :: t, a => if b = a then some w else Memory.read t a

/-- Record an element at an index, keeping the indices rising. -/
def Memory.write {α : Type} : Memory α → Nat → α → Memory α
  | [], a, v => [(a, v)]
  | (b, w) :: t, a, v =>
    if a < b then (a, v) :: (b, w) :: t
    else if a = b then (a, v) :: t
    else (b, w) :: Memory.write t a v

/-- `MemWrite(S, a, n, v)`: the elements of a sequence at `a, a+1, ...` (R9). -/
def Memory.writeAll {α : Type} : Memory α → Nat → List α → Memory α
  | m, _, [] => m
  | m, a, v :: vs => Memory.writeAll (Memory.write m a v) (a + 1) vs

/-- `IN[a]`; a byte nothing has written is a free value (log 6). -/
def readIn (s : State) (a : Nat) : Byte := (Memory.read s.inBuf a).getD (Config.unwrittenIn a)

/-- `OUT[a]`, as `readIn`. -/
def readOut (s : State) (a : Nat) : Byte := (Memory.read s.outBuf a).getD (Config.unwrittenOut a)

/-- `PIN[i]`, as `readIn`. -/
def readPin (s : State) (i : Nat) : Pixel := (Memory.read s.pin i).getD (Config.unwrittenPin i)

/-- `POUT[i]`, as `readIn`. -/
def readPout (s : State) (i : Nat) : Pixel := (Memory.read s.pout i).getD (Config.unwrittenPout i)

/-- `M = ENC_COUNT`, the number of input pixels (R40). -/
def pixelCount (s : State) : Nat := s.enc.count.toNat

/-- `N = DEC_INLEN`, the number of input bytes (R42). -/
def inputLength (s : State) : Nat := s.dec.inLen.toNat

/-- `MemRead(IN, a, n)` (R9): fetching an opcode's bytes. -/
def fetchBytes (s : State) (a : Nat) : Nat → List Byte
  | 0 => []
  | n + 1 => readIn s a :: fetchBytes s (a + 1) n

/-- `cache[i]` (R9). -/
def cacheRead (slots : Cache) (i : Fin 64) : Pixel := slots[i.val]

/-- `cache[i] <- p` (R9). -/
def cacheWrite (c : Cache) (i : Fin 64) (p : Pixel) : Cache := c.set i.val p i.isLt

/-- `cache[Hash(p)] <- p`: a pixel may live only in the slot of its pixelHash (R21, R166, R193). -/
def cacheStore (c : Cache) (p : Pixel) : Cache := cacheWrite c (pixelHash p) p

/-- The seed of a cache: every slot transparent black (R161, R191). -/
def seedCache : Cache := Vector.replicate 64 transparentBlack

/-- `Emit(v)`: append bytes to OUT at ENC.OUTLEN and advance it (R9). -/
def emit (v : List Byte) (s : State) : State :=
  { s with
    outBuf := Memory.writeAll s.outBuf s.enc.outLen v
    enc := { s.enc with outLen := s.enc.outLen + v.length } }

/-- `Put(p, k)`: append `k` copies of a pixel to POUT at DEC.PIXCOUNT and advance it (R9). -/
def put (p : Pixel) (k : Nat) (s : State) : State :=
  { s with
    pout := Memory.writeAll s.pout s.dec.pixCount (List.replicate k p)
    dec := { s.dec with pixCount := s.dec.pixCount + k } }

/-- `DEC.cache[Hash(p)] <- p` (R193). -/
def decStore (p : Pixel) (s : State) : State :=
  { s with dec := { s.dec with cache := cacheStore s.dec.cache p } }

/-- The common tail of an opcode step: append, previous pixel, offset (R195). -/
def completeOpcode (cur : Pixel) (n len : Nat) (s : State) : State :=
  let t := put cur n s
  { t with dec := { t.dec with prev := cur, offset := t.dec.offset + len } }

/-- TAKING AN EXCEPTION: `raise E(off)` records the error and its offset and ends the decode; nothing else is saved or
changed (R232). -/
def raiseError (e : DecErr) (off : Nat) (s : State) : State :=
  { s with dec := { s.dec with err := e, errOff := off, phase := .doneErr } }

/-- START of an encode: the seeds (R161), the progress registers at 0, phase HEADER (R49, R160). -/
def encStart (s : State) : State :=
  { s with enc := { s.enc with
      cache := seedCache, prev := opaqueBlack, run := 0, pos := 0, outLen := 0, phase := .header } }

/-- START of a decode: the seeds (R191), the progress, header and error registers cleared, phase HEADER (R49, R190).
It is also the only way on from an error: there is no return from one (R235). -/
def decStart (s : State) : State :=
  { s with dec := { s.dec with
      cache := seedCache, prev := opaqueBlack, offset := 0, pixCount := 0, width := 0#32, height := 0#32,
      channels := .rgb, colorspace := .srgb, err := .none, errOff := 0, phase := .header } }

end Sys2Proof.Machine
end

