-- ==== Sys2Proof/Machine/Opcodes.lean ====
section
/-! DEFINITION. The meanings of the six opcodes: what the decode engine does on each (R193, R195 to R201). -/
namespace Sys2Proof.Machine

/-- INDEX: the slot's content, which is then stored at its OWN hash, not always the slot read (R193, R198, R210). -/
def execIndex (i : Fin 64) (s : State) : Host.Outcome State Fault Refusal :=
  let cur := cacheRead s.dec.cache i
  .next (completeOpcode cur 1 1 (decStore cur s))

/-- DIFF: three small deltas added to the previous pixel, wrapping; alpha unchanged (R199). -/
def execDiff (dr dg db : Int) (s : State) : Host.Outcome State Fault Refusal :=
  let cur := addDeltas s.dec.prev dr dg db
  .next (completeOpcode cur 1 1 (decStore cur s))

/-- LUMA: `dr = dr_g + dg`, `db = db_g + dg`, added to the previous pixel, wrapping; alpha unchanged (R200). -/
def execLuma (dg drg dbg : Int) (s : State) : Host.Outcome State Fault Refusal :=
  let cur := addDeltas s.dec.prev (drg + dg) dg (dbg + dg)
  .next (completeOpcode cur 1 2 (decStore cur s))

/-- RUN: the previous pixel `len` times; no cache write (R201). -/
def execRun (len : Nat) (s : State) : Host.Outcome State Fault Refusal :=
  .next (completeOpcode s.dec.prev len 1 s)

/-- RGB: raw channels, alpha of the previous pixel (R196). -/
def execRgb (r g b : Byte) (s : State) : Host.Outcome State Fault Refusal :=
  let cur : Pixel := ⟨r, g, b, s.dec.prev.a⟩
  .next (completeOpcode cur 1 4 (decStore cur s))

/-- RGBA: raw channels (R197). -/
def execRgba (r g b a : Byte) (s : State) : Host.Outcome State Fault Refusal :=
  let cur : Pixel := ⟨r, g, b, a⟩
  .next (completeOpcode cur 1 5 (decStore cur s))

end Sys2Proof.Machine
end

