-- ==== Sys2Proof/Machine/Dispatch.lean ====
section
/-! DEFINITION. One arm per opcode. -/
namespace Sys2Proof.Machine

def exec (i : Instr) (s : State) : Host.Outcome State Fault Refusal :=
  match i with
  | .index slot => Sys2Proof.Machine.execIndex slot s
  | .diff dr dg db => Sys2Proof.Machine.execDiff dr dg db s
  | .luma dg drg dbg => Sys2Proof.Machine.execLuma dg drg dbg s
  | .run len => Sys2Proof.Machine.execRun len s
  | .rgb r g b => Sys2Proof.Machine.execRgb r g b s
  | .rgba r g b a => Sys2Proof.Machine.execRgba r g b a s

end Sys2Proof.Machine
end

