-- ==== Sys2Proof/Decode.lean ====
section
/-! DEFINITION. Bytes to opcodes and opcodes to bytes (30_encoding.md). -/
namespace Sys2Proof

/-- The kinds of opcode (R78). -/
inductive OpKind where
  | index
  | diff
  | luma
  | run
  | rgb
  | rgba
  deriving DecidableEq, Repr

/-- Why bytes are no opcode. Neither arises in a decode (R238); the checks are kept as the spec asks. -/
inductive DecodeError where
  /-- The bytes end inside the opcode (R194). -/
  | truncated
  /-- The first byte has no kind (R202); never, since `opKind` is total (R78, R80). -/
  | unrecognized
  deriving DecidableEq, Repr

/-- `v[hi:lo]` of a byte as a number, `len = hi - lo + 1` bits (R8). -/
def field (b : Byte) (lo len : Nat) : Nat := (b.extractLsb' lo len).toNat

/-- The kind of an opcode byte, the tests in the spec's order (R78): the exact bytes 0xFE and 0xFF come before the
two-bit tests. The last alternative is the defensive one of R202. -/
def opKind (b0 : Byte) : Option OpKind :=
  if b0 = 0xFE#8 then some .rgb
  else if b0 = 0xFF#8 then some .rgba
  else if field b0 6 2 = 0 then some .index
  else if field b0 6 2 = 1 then some .diff
  else if field b0 6 2 = 2 then some .luma
  else if field b0 6 2 = 3 then some .run
  else none

/-- The length of an opcode, from its first byte alone (R79). -/
def opLen (b0 : Byte) : Nat :=
  if b0 = 0xFE#8 then 4
  else if b0 = 0xFF#8 then 5
  else if field b0 6 2 = 2 then 2
  else 1

/-- How many pixels an opcode appends, from its first byte alone: the length of a RUN, else 1 (R74, R195). -/
def opPixels (b0 : Byte) : Nat := if opKind b0 = some .run then field b0 0 6 + 1 else 1

/-- An unsigned field read with its bias taken off (R77). -/
def unbias (b : Byte) (lo len bias : Nat) : Int := (field b lo len : Int) - (bias : Int)

/-- `i = b0[5:0]`, a slot number (R71). -/
def decodeIndex (b0 : Byte) : Instr := .index (b0.extractLsb' 0 6).toFin

/-- The three two-bit fields, each with bias 2 (R72). -/
def decodeDiff (b0 : Byte) : Instr := .diff (unbias b0 4 2 2) (unbias b0 2 2 2) (unbias b0 0 2 2)

/-- Green with bias 32 in the first byte; the cross deltas with bias 8, red in the high nibble (R73). -/
def decodeLuma (b0 b1 : Byte) : Instr := .luma (unbias b0 0 6 32) (unbias b1 4 4 8) (unbias b1 0 4 8)

/-- `len = b0[5:0] + 1` (R74). -/
def decodeRun (b0 : Byte) : Instr := .run (field b0 0 6 + 1)

/-- The opcode at the head of a byte sequence, and the bytes after it. Total; the following bytes of LUMA, RGB and
RGBA are never classified (R79), and every value of them is valid (R80). -/
def decode : List Byte → Except DecodeError (Instr × List Byte)
  | [] => .error .truncated
  | b0 :: rest =>
    match opKind b0, rest with
    | none, _ => .error .unrecognized
    | some .index, _ => .ok (decodeIndex b0, rest)
    | some .diff, _ => .ok (decodeDiff b0, rest)
    | some .luma, b1 :: t => .ok (decodeLuma b0 b1, t)
    | some .run, _ => .ok (decodeRun b0, rest)
    | some .rgb, r :: g :: b :: t => .ok (.rgb r g b, t)
    | some .rgba, r :: g :: b :: a :: t => .ok (.rgba r g b a, t)
    | some _, _ => .error .truncated

/-- A value as an unsigned field: the negated bias is added and the low bits are placed (R77). -/
def biased (v : Int) (bias : Nat) : Byte := BitVec.ofInt 8 (v + (bias : Int))

/-- The bytes of an opcode (R71 to R76, R82). -/
def encode : Instr → List Byte
  | .index i => [0x00#8 ||| BitVec.ofNat 8 i.val]
  | .diff dr dg db => [0x40#8 ||| (biased dr 2 <<< 4) ||| (biased dg 2 <<< 2) ||| biased db 2]
  | .luma dg drg dbg => [0x80#8 ||| biased dg 32, (biased drg 8 <<< 4) ||| biased dbg 8]
  | .run len => [0xC0#8 ||| BitVec.ofNat 8 (len - 1)]
  | .rgb r g b => [0xFE#8, r, g, b]
  | .rgba r g b a => [0xFF#8, r, g, b, a]

/-- The longest opcode, RGBA (R70). -/
def longestOpcode : Nat := 5

/-- The bytes of a word whose first byte is its lowest 8 bits; bits at `nbits` and above count as 0. -/
def wordBytes (nbits w : Nat) : Nat → Nat → List Byte
  | 0, _ => []
  | n + 1, k => (if 8 * k < nbits then BitVec.ofNat 8 (w >>> (8 * k)) else 0#8) :: wordBytes nbits w n (k + 1)

/-- The opcode the decoder reads from a word numbered as opcode_table.json numbers it: bit 0 is the least significant
bit of the first byte, and later bytes count on from it. -/
def decodeTableWord (nbits w : Nat) : Option Instr :=
  match decode (wordBytes nbits w longestOpcode 0) with
  | .ok (i, _) => some i
  | .error _ => none

end Sys2Proof
end

