-- ==== Sys2Proof/Machine/FrameSync.lean ====
section
/-! DEFINITION. The frame synchronizer: header writer and parser, end marker (41_frame_sync.md). -/
namespace Sys2Proof.Machine

/-- The magic tag, ASCII "qoif" (R131). -/
def magic : List Byte := [0x71#8, 0x6F#8, 0x69#8, 0x66#8]

/-- `MARKER` (R141). -/
def marker : List Byte := [0#8, 0#8, 0#8, 0#8, 0#8, 0#8, 0#8, 1#8]

/-- `ChByte`, the writer's channel byte (R132). -/
def chByte : ChannelTag → Byte
  | .rgb => 3#8
  | .rgba => 4#8
  | .unknown => 1#8

/-- `CsByte`, the writer's colorspace byte (R132). -/
def csByte : ColorTag → Byte
  | .srgb => 0#8
  | .linear => 1#8
  | .unknown => 2#8

/-- `ChTag`, permissive: no byte is rejected (R136). -/
def chTag (x : Byte) : ChannelTag := if x = 3#8 then .rgb else if x = 4#8 then .rgba else .unknown

/-- `CsTag`, permissive (R136). -/
def csTag (x : Byte) : ColorTag := if x = 0#8 then .srgb else if x = 1#8 then .linear else .unknown

/-- A 32-bit integer big-endian, most significant byte first (R55). -/
def be32Bytes (w : Word) : List Byte :=
  [w.extractLsb' 24 8, w.extractLsb' 16 8, w.extractLsb' 8 8, w.extractLsb' 0 8]

/-- Four bytes read as a big-endian 32-bit integer (R55, R137). -/
def be32 (b0 b1 b2 b3 : Byte) : Word :=
  (b0.setWidth 32 <<< 24) ||| (b1.setWidth 32 <<< 16) ||| (b2.setWidth 32 <<< 8) ||| b3.setWidth 32

/-- `HeaderBytes(w, h, ch, cs)`, 14 bytes (R131). -/
def headerBytes (w h : Word) (ch : ChannelTag) (cs : ColorTag) : List Byte :=
  magic ++ be32Bytes w ++ be32Bytes h ++ [chByte ch, csByte cs]

/-- What the parser finds (R133). -/
structure HeaderFields where
  width : Word
  height : Word
  channels : ChannelTag
  colorspace : ColorTag
  deriving DecidableEq, Repr

/-- `ParseHeader(IN, N)`: the length, then the magic, and no other check; the first failure ends it (R133 to R138).
`rd` reads one byte of the input. -/
def parseHeader (rd : Nat → Byte) (n : Nat) : Except DecErr HeaderFields :=
  if n < 14 then .error .headerTooShort
  else if [rd 0, rd 1, rd 2, rd 3] ≠ magic then .error .invalidMagic
  else .ok
    { width := be32 (rd 4) (rd 5) (rd 6) (rd 7)
      height := be32 (rd 8) (rd 9) (rd 10) (rd 11)
      channels := chTag (rd 12)
      colorspace := csTag (rd 13) }

/-- `MarkerOK(IN, o, N)`: exactly 8 bytes remain and they are the marker (R142). -/
def markerOk (rd : Nat → Byte) (o n : Nat) : Bool :=
  decide (n = o + 8) &&
    decide ([rd o, rd (o + 1), rd (o + 2), rd (o + 3), rd (o + 4), rd (o + 5), rd (o + 6), rd (o + 7)] = marker)

/-- How many pixels the opcode loop appends from offset `o` of an input of `n` bytes on, in at most `k` opcodes (R192,
R195). -/
def streamPixels (rd : Nat → Byte) (n : Nat) : Nat → Nat → Nat
  | 0, _ => 0
  | k + 1, o => if o + 8 < n then opPixels (rd o) + streamPixels rd n k (o + opLen (rd o)) else 0

/-- The produced pixel count of a launch (R7): how many pixels a decode of IN as it stands appends, none when the header
does not parse. Every opcode is at least a byte long, so `n` opcodes are enough (R203). -/
def producedPixels (s : State) : Nat :=
  match parseHeader (readIn s) (inputLength s) with
  | .error _ => 0
  | .ok _ => streamPixels (readIn s) (inputLength s) (inputLength s) 14

/-- The bytes of one line of the spec's assembler (R82). -/
def lineBytes : Line → List Byte
  | .header w h ch cs => headerBytes w h ch cs
  | .op i => encode i
  | .endMark => marker

/-- The spec's assembler: it refuses an operand outside its field's range (R82). -/
def assemble : List Line → Option (List Byte)
  | [] => some []
  | l :: ls => if l.wellFormed then (assemble ls).map (lineBytes l ++ ·) else none

end Sys2Proof.Machine
end

