-- ==== Sys2Proof/Machine/Decoder.lean ====
section
/-! DEFINITION. The decode engine around the opcodes: header, opcode loop, marker (43_decoder.md). -/
namespace Sys2Proof.Machine

/-- The header step (R190): the parser's error is raised at offset 0, before any write (R232). -/
def decHeaderStep (s : State) : State :=
  match parseHeader (readIn s) (inputLength s) with
  | .error e => raiseError e 0 s
  | .ok f =>
    { s with dec := { s.dec with
        width := f.width, height := f.height, channels := f.channels, colorspace := f.colorspace,
        offset := 14, phase := .stream } }

/-- The opcode step (R192): the truncation check (R194), then the opcode at the offset. Neither error is ever raised
under the loop bound (R238). -/
def decOpcodeStep (s : State) : Host.Outcome State Fault Refusal :=
  let o := s.dec.offset
  let len := opLen (readIn s o)
  if inputLength s < o + len then .next (raiseError .truncatedStream o s)
  else
    match decode (fetchBytes s o len) with
    | .ok (i, _) => exec i s
    | .error .truncated => .next (raiseError .truncatedStream o s)
    | .error .unrecognized => .next (raiseError .unrecognizedOpcode o s)

/-- The marker step (R204). -/
def decMarkerStep (s : State) : State :=
  if markerOk (readIn s) s.dec.offset (inputLength s) then { s with dec := { s.dec with phase := .doneOk } }
  else raiseError .paddingMismatch s.dec.offset s

/-- One turn of the decode engine. In STREAM it takes an opcode step while `offset < N - 8` and otherwise enters MARKER
(R192; log 3); in IDLE, DONE_OK and DONE_ERR it takes no step (R246). -/
def decTurn (s : State) : Host.Outcome State Fault Refusal :=
  match s.dec.phase with
  | .idle => .next s
  | .header => .next (decHeaderStep s)
  | .stream =>
    if s.dec.offset + 8 < inputLength s then decOpcodeStep s
    else .next { s with dec := { s.dec with phase := .marker } }
  | .marker => .next (decMarkerStep s)
  | .doneOk => .next s
  | .doneErr => .next s

/-- Where an opcode is placed to be fetched next: at the offset of a running stream, else at STREAM_START (R6). -/
def placeOffset (s : State) : Nat :=
  if s.dec.phase = .stream ∧ s.dec.offset + 13 < 2 ^ 32 then s.dec.offset else 14

/-- The engine as a START and a parsed header leave it at `STREAM`, unless it is there already (log 13). -/
def enterStream (s : State) : State :=
  if s.dec.phase = .stream then s
  else
    let t := decStart s
    { t with dec := { t.dec with phase := .stream } }

/-- Opcode bytes laid at the offset, with at least the marker's 8 bytes of input after them, and the decode engine's turn
next. -/
def placeOpcode (bytes : List Byte) (s : State) : State :=
  let o := placeOffset s
  let t := enterStream s
  { t with
    inBuf := Memory.writeAll t.inBuf o bytes
    dec := { t.dec with offset := o, inLen := BitVec.ofNat 32 (max t.dec.inLen.toNat (o + bytes.length + 8)) }
    sched := .dec :: t.sched }

end Sys2Proof.Machine
end

