-- ==== Sys2Proof/Machine/Encoder.lean ====
section
/-! DEFINITION. The encode engine and its greedy opcode selector (42_encoder.md). -/
namespace Sys2Proof.Machine

/-- The phase the header step leads to: FINISH at once when there is no pixel (R160, R162). -/
def afterHeader (m : Nat) : EncPhase := if m = 0 then .finish else .pixels

/-- The header step (R160). -/
def encHeaderStep (s : State) : State :=
  let t := emit (headerBytes s.enc.width s.enc.height s.enc.channels s.enc.colorspace) s
  { t with enc := { t.enc with phase := afterHeader (pixelCount s) } }

/-- Flush a pending run as a RUN opcode and clear it (R164, R173). -/
def encFlushRun (s : State) : State :=
  if s.enc.run > 0 then
    let t := emit (encode (.run s.enc.run)) s
    { t with enc := { t.enc with run := 0 } }
  else s

/-- Step 1: the pixel equals the previous one. The run grows, and is flushed at the cap of 62 (R163). -/
def encRunStep (s : State) : State :=
  let t := { s with enc := { s.enc with run := s.enc.run + 1 } }
  if t.enc.run = 62 then encFlushRun t else t

/-- The opcode of a pixel that misses the cache: RGBA when alpha changed, else the first of DIFF, LUMA and RGB that
applies (R167 to R170). -/
def selectOpcode (p prev : Pixel) : Instr :=
  if alphaEq p prev then
    let dr := delta p.r prev.r
    let dg := delta p.g prev.g
    let db := delta p.b prev.b
    if fitsDiff dr dg db then .diff dr dg db
    else if fitsLuma dg (crossDelta dr dg) (crossDelta db dg) then .luma dg (crossDelta dr dg) (crossDelta db dg)
    else .rgb p.r p.g p.b
  else .rgba p.r p.g p.b p.a

/-- Step 2b: store the pixel at its hash, then write the selected opcode (R166 to R170). -/
def encMissStep (p : Pixel) (s : State) : State :=
  emit (encode (selectOpcode p s.enc.prev))
    { s with enc := { s.enc with cache := cacheStore s.enc.cache p } }

/-- Step 2: any pending run is flushed first; then INDEX on a cache hit, without a cache write, whatever the alpha
(R164, R165), else the miss. -/
def encDifferStep (p : Pixel) (s : State) : State :=
  let t := encFlushRun s
  if pixelEq (cacheRead t.enc.cache (pixelHash p)) p then emit (encode (.index (pixelHash p))) t
  else encMissStep p t

/-- Step 3: the previous pixel and the position; after the last pixel, FINISH (R162, R171). -/
def encAdvance (p : Pixel) (s : State) : State :=
  let t := { s with enc := { s.enc with prev := p, pos := s.enc.pos + 1 } }
  if t.enc.pos = pixelCount t then { t with enc := { t.enc with phase := .finish } } else t

/-- The pixel step (R162, R172). -/
def encPixelStep (s : State) : State :=
  let p := readPin s s.enc.pos
  encAdvance p (if pixelEq p s.enc.prev then encRunStep s else encDifferStep p s)

/-- The finish step: the last run, then the marker (R140, R173). -/
def encFinishStep (s : State) : State :=
  let t := emit marker (encFlushRun s)
  { t with enc := { t.enc with phase := .done } }

/-- One turn of the encode engine. It never fails (R174); in IDLE and DONE it takes no step (R246). -/
def encTurn (s : State) : State :=
  match s.enc.phase with
  | .idle => s
  | .header => encHeaderStep s
  | .pixels => if s.enc.pos < pixelCount s then encPixelStep s else s
  | .finish => encFinishStep s
  | .done => s

end Sys2Proof.Machine
end

