-- ==== Sys2Proof/Machine/HostPort.lean ====
section
/-! DEFINITION. The host's side: the register map (R35 to R45), the buffers, and power-on reset. -/
namespace Sys2Proof.Machine

/-- The registers of the map (R35). -/
inductive HostReg where
  | encCtrl
  | encStatus
  | encWidth
  | encHeight
  | encFormat
  | encCount
  | encOutLen
  | encPos
  | decCtrl
  | decStatus
  | decInLen
  | decWidth
  | decHeight
  | decFormat
  | decPixCount
  | decOffset
  deriving DecidableEq, Repr

/-- The register at a byte offset; 0x40 and above, and offsets off a word boundary, hold none (R35). -/
def regAt (offset : Nat) : Option HostReg :=
  match offset with
  | 0x00 => some .encCtrl
  | 0x04 => some .encStatus
  | 0x08 => some .encWidth
  | 0x0C => some .encHeight
  | 0x10 => some .encFormat
  | 0x14 => some .encCount
  | 0x18 => some .encOutLen
  | 0x1C => some .encPos
  | 0x20 => some .decCtrl
  | 0x24 => some .decStatus
  | 0x28 => some .decInLen
  | 0x2C => some .decWidth
  | 0x30 => some .decHeight
  | 0x34 => some .decFormat
  | 0x38 => some .decPixCount
  | 0x3C => some .decOffset
  | _ => none

/-- The register an access of `size` bytes reaches: aligned whole words only (R35). -/
def accessedReg (offset size : Nat) : Option HostReg := if size = 4 then regAt offset else none

/-- The register code of a channel tag (R39). -/
def channelCode : ChannelTag → BitVec 2
  | .rgb => 0#2
  | .rgba => 1#2
  | .unknown => 2#2

/-- The register code of a colorspace tag (R39). -/
def colorCode : ColorTag → BitVec 2
  | .srgb => 0#2
  | .linear => 1#2
  | .unknown => 2#2

/-- The channel tag a written code stores; 3 stores UNKNOWN (R39). -/
def channelOfCode (c : BitVec 2) : ChannelTag := if c = 0#2 then .rgb else if c = 1#2 then .rgba else .unknown

/-- The colorspace tag a written code stores; 3 stores UNKNOWN (R39). -/
def colorOfCode (c : BitVec 2) : ColorTag := if c = 0#2 then .srgb else if c = 1#2 then .linear else .unknown

/-- A FORMAT register as a word: CHANNELS [1:0], COLORSPACE [3:2], the rest 0 (R39). -/
def formatWord (ch : ChannelTag) (cs : ColorTag) : Word :=
  (channelCode ch).setWidth 32 ||| ((colorCode cs).setWidth 32 <<< 2)

/-- The code of a decode error (R230). -/
def errCode : DecErr → Nat
  | .none => 0
  | .headerTooShort => 1
  | .invalidMagic => 2
  | .truncatedStream => 3
  | .unrecognizedOpcode => 4
  | .paddingMismatch => 5

/-- ENC_STATUS.STATE (R37). -/
def encStateCode : EncPhase → Nat
  | .idle => 0
  | .header => 1
  | .pixels => 1
  | .finish => 1
  | .done => 2

/-- DEC_STATUS.STATE (R37). -/
def decStateCode : DecPhase → Nat
  | .idle => 0
  | .header => 1
  | .stream => 1
  | .marker => 1
  | .doneOk => 2
  | .doneErr => 3

/-- A STATUS register as a word: STATE [1:0], ERR [6:4], the rest 0 (R37). -/
def statusWord (state err : Nat) : Word := BitVec.ofNat 32 state ||| (BitVec.ofNat 32 err <<< 4)

/-- A count in a register of COUNT_W bits; a count that does not fit is outside the spec's model (R7, R265). -/
def countWord (n : Nat) : Option Word := if n < 2 ^ Config.countW then some (BitVec.ofNat 32 n) else none

/-- What DEC_OFFSET shows (R44). -/
def offsetShown (s : State) : Nat := if s.dec.phase = .doneErr then s.dec.errOff else s.dec.offset

/-- The word a register shows (R36 to R44). `none` only for a count that does not fit (log 11). -/
def regView (r : HostReg) (s : State) : Option Word :=
  match r with
  | .encCtrl => some 0#32
  | .encStatus => some (statusWord (encStateCode s.enc.phase) 0)
  | .encWidth => some s.enc.width
  | .encHeight => some s.enc.height
  | .encFormat => some (formatWord s.enc.channels s.enc.colorspace)
  | .encCount => some s.enc.count
  | .encOutLen => countWord s.enc.outLen
  | .encPos => countWord s.enc.pos
  | .decCtrl => some 0#32
  | .decStatus => some (statusWord (decStateCode s.dec.phase) (errCode s.dec.err))
  | .decInLen => some s.dec.inLen
  | .decWidth => some s.dec.width
  | .decHeight => some s.dec.height
  | .decFormat => some (formatWord s.dec.channels s.dec.colorspace)
  | .decPixCount => countWord s.dec.pixCount
  | .decOffset => countWord (offsetShown s)

/-- A register whose view is no result at DONE_ERR (R233, 93 #6). -/
def noResultAtError : HostReg → Bool
  | .encCtrl => false
  | .encStatus => false
  | .encWidth => false
  | .encHeight => false
  | .encFormat => false
  | .encCount => false
  | .encOutLen => false
  | .encPos => false
  | .decCtrl => false
  | .decStatus => false
  | .decInLen => false
  | .decWidth => true
  | .decHeight => true
  | .decFormat => true
  | .decPixCount => true
  | .decOffset => false

/-- A read returns a reply to the host. -/
def replyWith (r : Reply) (s : State) : State := { s with replies := r :: s.replies }

/-- One more free value has been drawn (log 7). -/
def drawn (s : State) : State := { s with draws := s.draws + 1 }

/-- The `k`-th free word a register shows where its view is no result. DEC_FORMAT still holds a legal code in each
field and 0 in the reserved bits (R39, 93 #16, #17): only the tags are free. -/
def freeView (r : HostReg) (k : Nat) : Word :=
  if r = .decFormat then formatWord (Config.freeChannels k) (Config.freeColorspace k) else Config.freeWord k

/-- A host read of a register: the view of R36 to R44, without any side effect; at DONE_ERR the views that are no result
give a free value (93 #6; log 7). -/
def hostReadReg (r : HostReg) (s : State) : Host.Outcome State Fault Refusal :=
  if noResultAtError r && decide (s.dec.phase = .doneErr) then
    .next (replyWith (.word (freeView r s.draws)) (drawn s))
  else
    match regView r s with
    | some w => .next (replyWith (.word w) s)
    | none => .refused .countTooWide

/-- The launch premises of an encode: the worst-case output fits COUNT_W bits and the buffer (R265). -/
def encPremises (s : State) : Bool :=
  decide (22 + 5 * pixelCount s < 2 ^ Config.countW) && decide (22 + 5 * pixelCount s ≤ s.outRoom)

/-- The produced pixel count fits COUNT_W bits (R7, 93 #9). The bound of R203 settles it for every input shorter than
some 69 million bytes, so that the opcodes are counted for a longer one only. -/
def producedFits (s : State) : Bool :=
  decide (62 * (inputLength s - 22) < 2 ^ Config.countW) || decide (producedPixels s < 2 ^ Config.countW)

/-- The launch premises of a decode: the buffer has room for the most pixels the input can give (R265), and the pixels it
does give can be counted (R7). -/
def decPremises (s : State) : Bool := decide (62 * (inputLength s - 22) ≤ s.poutRoom) && producedFits s

/-- A write of START = 1 to ENC_CTRL (R36): ignored while BUSY, else the launch, whose premises must hold (R265). -/
def hostStartEnc (s : State) : Host.Outcome State Fault Refusal :=
  if encBusy s then .next s
  else if encPremises s then .next (encStart s)
  else .refused .launchPremise

/-- A write of START = 1 to DEC_CTRL, as `hostStartEnc` (R36, R265). -/
def hostStartDec (s : State) : Host.Outcome State Fault Refusal :=
  if decBusy s then .next s
  else if decPremises s then .next (decStart s)
  else .refused .launchPremise

/-- An update of an encode configuration register: ignored while BUSY (R45). -/
def configureEnc (e : EncEngine) (s : State) : Host.Outcome State Fault Refusal :=
  if encBusy s then .next s else .next { s with enc := e }

/-- An update of a decode configuration register: ignored while BUSY (R45). -/
def configureDec (d : DecEngine) (s : State) : Host.Outcome State Fault Refusal :=
  if decBusy s then .next s else .next { s with dec := d }

/-- A host write of a register (R36 to R45). A write to a read-only register has no effect (R35, R231, R242; log 12). -/
def hostWriteReg (r : HostReg) (v : Word) (s : State) : Host.Outcome State Fault Refusal :=
  match r with
  | .encCtrl => if v.getLsbD 0 then hostStartEnc s else .next s
  | .encStatus => .next s
  | .encWidth => configureEnc { s.enc with width := v } s
  | .encHeight => configureEnc { s.enc with height := v } s
  | .encFormat =>
    configureEnc { s.enc with
      channels := channelOfCode (v.extractLsb' 0 2), colorspace := colorOfCode (v.extractLsb' 2 2) } s
  | .encCount => configureEnc { s.enc with count := v } s
  | .encOutLen => .next s
  | .encPos => .next s
  | .decCtrl => if v.getLsbD 0 then hostStartDec s else .next s
  | .decStatus => .next s
  | .decInLen => configureDec { s.dec with inLen := v } s
  | .decWidth => .next s
  | .decHeight => .next s
  | .decFormat => .next s
  | .decPixCount => .next s
  | .decOffset => .next s

/-- A host write to a buffer of an engine: a race while that engine is BUSY (R62, R264; log 8). -/
def unlessBusy (busy : Bool) (t : State) : Host.Outcome State Fault Refusal :=
  if busy then .fault .bufferRace else .next t

/-- POUT is no result while DEC is BUSY or at DONE_ERR (R233, R263, 93 #5, #6). In no other phase is its read free, also not
at IDLE after a power-on that follows DONE_ERR or cuts a decode (MODEL'S CHOICE, DESIGN CHOICE, log 21). -/
def poutNoResult (s : State) : Bool := decBusy s || decide (s.dec.phase = .doneErr)

/-- A host read of a POUT pixel: a free value when POUT is no result (log 7), else what POUT holds. MODEL'S CHOICE
(DESIGN CHOICE, log 20): the final content shows as soon as the phase is DONE_OK, also to a host that has not yet read
DONE in STATUS; R60 and R263 leave open what such a host sees. MODEL'S CHOICE too (DESIGN CHOICE, log 21): at IDLE after a
power-on, what POUT held before it shows: the pixels a cut decode had appended so far, or those a failed decode had
appended before its error, which R60, R241 and R263 leave open as well. -/
def hostReadPout (i : Nat) (s : State) : State :=
  if poutNoResult s then replyWith (.pixel (Config.freePixel s.draws)) (drawn s)
  else replyWith (.pixel (readPout s i)) s

/-- A host read of a POUT byte: byte `a mod 4` of pixel `a div 4` (R53), free, final and kept over a power-on as above (logs 7,
16, 20, 21). -/
def hostReadPoutByte (a : Nat) (s : State) : State :=
  if poutNoResult s then replyWith (.byte (Config.freeByte s.draws)) (drawn s)
  else replyWith (.byte (pixelByte (readPout s (a / 4)) (a % 4))) s

/-- A host read of an OUT byte: a free value while ENC is BUSY (R263, 93 #5; log 7), else what OUT holds. MODEL'S
CHOICES, as for POUT: the final content shows as soon as the phase is DONE (log 20), and at IDLE after a power-on,
what OUT held before it, also what a cut encode had written so far (log 21). -/
def hostReadOut (a : Nat) (s : State) : State :=
  if encBusy s then replyWith (.byte (Config.freeByte s.draws)) (drawn s)
  else replyWith (.byte (readOut s a)) s

/-- Power-on reset of the core: both engines as R48 leaves them; the host's buffers are the host's and stay
(log 15), with what an invocation that the reset cut, or that had failed, had written to them (log 21). -/
def powerOnReset (s : State) : State := { s with enc := EncEngine.reset, dec := DecEngine.reset }

/-- One action of the host. MODEL'S CHOICE (DESIGN CHOICE, log 19) where R50 and R261 are silent: a buffer that is placed
changes the room alone and keeps what was recorded at each index, and a host access is not checked against the room. -/
def hostAct (act : HostAction) (s : State) : Host.Outcome State Fault Refusal :=
  match act with
  | .readReg offset size =>
    match accessedReg offset size with
    | some r => hostReadReg r s
    | none => .refused .badRegisterAccess
  | .writeReg offset size v =>
    match accessedReg offset size with
    | some r => hostWriteReg r v s
    | none => .refused .badRegisterAccess
  | .writeIn a v => unlessBusy (decBusy s) { s with inBuf := Memory.write s.inBuf a v }
  | .writeOut a v => unlessBusy (encBusy s) { s with outBuf := Memory.write s.outBuf a v }
  | .writePin i p => unlessBusy (encBusy s) { s with pin := Memory.write s.pin i p }
  | .writePout i p => unlessBusy (decBusy s) { s with pout := Memory.write s.pout i p }
  | .writePinByte a v =>
    unlessBusy (encBusy s) { s with pin := Memory.write s.pin (a / 4) (setPixelByte (readPin s (a / 4)) (a % 4) v) }
  | .readIn a => .next (replyWith (.byte (readIn s a)) s)
  | .readOut a => .next (hostReadOut a s)
  | .readPin i => .next (replyWith (.pixel (readPin s i)) s)
  | .readPout i => .next (hostReadPout i s)
  | .readPoutByte a => .next (hostReadPoutByte a s)
  | .provideOut room => unlessBusy (encBusy s) { s with outRoom := room }
  | .providePout room => unlessBusy (decBusy s) { s with poutRoom := room }
  | .powerOn => .next (powerOnReset s)

/-- One turn of the host: its next pending action, if any. -/
def hostTurn (s : State) : Host.Outcome State Fault Refusal :=
  match s.pending with
  | [] => .next s
  | act :: rest => hostAct act { s with pending := rest }

end Sys2Proof.Machine
end

