-- ==== Sys2Proof/Machine/Turns.lean ====
section
/-! DEFINITION. Whose turn it is, and what a turn does (R20, R60). -/
namespace Sys2Proof.Machine

/-- Who moves next: the schedule in State, and when it is used up an engine that is BUSY, the decode engine first, else
the host (log 1). -/
def nextAgent (s : State) : Agent :=
  match s.sched with
  | a :: _ => a
  | [] => if decBusy s then .dec else if encBusy s then .enc else .host

/-- The state with its turn taken off the schedule. -/
def takeTurn (s : State) : State := { s with sched := s.sched.tail }

/-- One turn of an agent. -/
def agentTurn (a : Agent) (s : State) : Host.Outcome State Fault Refusal :=
  match a with
  | .enc => .next (encTurn s)
  | .dec => decTurn s
  | .host => hostTurn s

end Sys2Proof.Machine
end

