-- ==== Sys2Proof/Machine/Step.lean ====
section
/-! DEFINITION. One step of the machine: one atomic step of one agent (R10, R20). -/
namespace Sys2Proof.Machine

/-- The agent whose turn it is takes one step. -/
def step (s : State) : Host.Outcome State Fault Refusal := agentTurn (nextAgent s) (takeTurn s)

/-- `s` with an opcode, numbered as opcode_table.json numbers it, where the next step fetches it: the decode engine in
STREAM with that opcode at its offset, and its turn next (assumption log 13). -/
def State.withFetchWord (s : State) (nbits w : Nat) : State := placeOpcode (wordBytes nbits w longestOpcode 0) s

end Sys2Proof.Machine
end

