-- ==== Sys2Proof/Machine/Platform.lean ====
section
/-! DEFINITION. INSTANCES copies of the core on one platform, and runs of one engine alone. -/
namespace Sys2Proof.Machine

/-- The instances of a platform, each with its own state (R244); INSTANCES is the length (R7). -/
abbrev Platform := List State

/-- Instance `k` takes one step; there is nothing it could share (R244). -/
def platformStep (k : Nat) (p : Platform) : Host.Outcome Platform Fault Refusal :=
  match p[k]? with
  | none => .next p
  | some s =>
    match step s with
    | .next t => .next (p.set k t)
    | .fault f => .fault f
    | .refused r => .refused r

/-- `k` steps of the encode engine, with no other agent between them (R20: none could matter). -/
def encRun : Nat → State → State
  | 0, s => s
  | k + 1, s => encRun k (encTurn s)

/-- `k` steps of the decode engine, with no other agent between them. -/
def decRun : Nat → State → Host.Outcome State Fault Refusal
  | 0, s => .next s
  | k + 1, s =>
    match decTurn s with
    | .next t => decRun k t
    | .fault f => .fault f
    | .refused r => .refused r

end Sys2Proof.Machine
end

