-- ==== Sys2Proof/Machine/Observe.lean ====
section
/-! DEFINITION. What an invocation shows when it is complete (R205, R233, R241). -/
namespace Sys2Proof.Machine

/-- `OUT[0..ENC.OUTLEN)`. -/
def outFrame (s : State) : List Byte := (List.range s.enc.outLen).map (readOut s)

/-- `POUT[0..DEC.PIXCOUNT)`. -/
def outPixels (s : State) : List Pixel := (List.range s.dec.pixCount).map (readPout s)

/-- The observation of a decode (R241). -/
inductive DecResult where
  | ok (pixels : List Pixel) (w h : Word) (ch : ChannelTag) (cs : ColorTag)
  | error (e : DecErr)
  deriving DecidableEq, Repr

/-- The observation of an encode run, once it has ended (R241). -/
def encObservation (s : State) : Option (List Byte) :=
  if s.enc.phase = .done then some (outFrame s) else none

/-- The observation of a decode run, once it has ended: at DONE_ERR the error and nothing else (R233, R241). -/
def decObservation (s : State) : Option DecResult :=
  if s.dec.phase = .doneOk then
    some (.ok (outPixels s) s.dec.width s.dec.height s.dec.channels s.dec.colorspace)
  else if s.dec.phase = .doneErr then some (.error s.dec.err)
  else none

end Sys2Proof.Machine
end

