-- ==== Sys2Proof/Safety.lean ====
section
/-! DEFINITION. What holds of every state a run of the core can reach, and what a stop is. -/
namespace Sys2Proof.Machine

/-- A pixel lives only in the slot of its hash; a slot not stored to yet holds the seed (R21, R161, R191). -/
def directMapped (c : Cache) : Prop :=
  ∀ i : Fin 64, cacheRead c i = transparentBlack ∨ pixelHash (cacheRead c i) = i

/-- The encode engine's part of the invariant. `M` is ENC_COUNT, fixed while BUSY (R45). -/
structure EncInv (s : State) : Prop where
  /-- R23; at power-on the run counter is unspecified (R48), so nothing is claimed at IDLE. -/
  run_le : s.enc.phase ≠ .idle → s.enc.run ≤ 61
  /-- R21; at IDLE as for the run counter. -/
  mapped : s.enc.phase ≠ .idle → directMapped s.enc.cache
  /-- R265, checked at START. -/
  fits : encBusy s = true → 22 + 5 * pixelCount s < 2 ^ Config.countW ∧ 22 + 5 * pixelCount s ≤ s.outRoom
  /-- R160, R161. -/
  header : s.enc.phase = .header → s.enc.pos = 0 ∧ s.enc.outLen = 0 ∧ s.enc.run = 0 ∧ s.enc.prev = opaqueBlack
  /-- R24, R25. -/
  pixels : s.enc.phase = .pixels → s.enc.pos < pixelCount s
  /-- R24, R25. -/
  finish : s.enc.phase = .finish → s.enc.pos = pixelCount s
  /-- R175, while the stream is being written: at least one byte for 62 pixels, at most 5 a pixel. -/
  stream : s.enc.phase = .pixels ∨ s.enc.phase = .finish →
    14 ≤ s.enc.outLen ∧ s.enc.pos ≤ 62 * (s.enc.outLen - 14) + s.enc.run ∧
      s.enc.outLen + (if s.enc.run = 0 then 0 else 1) ≤ 14 + 5 * s.enc.pos
  /-- R173, R175. -/
  done : s.enc.phase = .done →
    s.enc.run = 0 ∧ 22 ≤ s.enc.outLen ∧ s.enc.pos ≤ 62 * (s.enc.outLen - 22) ∧ s.enc.outLen ≤ 22 + 5 * s.enc.pos
  /-- R7, R265. -/
  narrow : s.enc.outLen < 2 ^ Config.countW ∧ s.enc.pos < 2 ^ Config.countW

/-- How many pixels the decode engine still appends: those of its whole input at HEADER, those from its offset on in
STREAM, and none in any other phase. -/
def pixelsToCome (s : State) : Nat :=
  match s.dec.phase with
  | .idle => 0
  | .header => producedPixels s
  | .stream => streamPixels (readIn s) (inputLength s) (inputLength s) s.dec.offset
  | .marker => 0
  | .doneOk => 0
  | .doneErr => 0

/-- The decode engine's part of the invariant. `N` is DEC_INLEN, fixed while BUSY (R45). -/
structure DecInv (s : State) : Prop where
  /-- R28. -/
  mapped : s.dec.phase ≠ .idle → directMapped s.dec.cache
  /-- R265, checked at START. -/
  fits : decBusy s = true → 62 * (inputLength s - 22) ≤ s.poutRoom
  /-- R190, R191. -/
  header : s.dec.phase = .header → s.dec.offset = 0 ∧ s.dec.pixCount = 0 ∧ s.dec.prev = opaqueBlack
  /-- R27, R192, R194. -/
  stream : s.dec.phase = .stream → 14 ≤ s.dec.offset ∧ s.dec.offset ≤ inputLength s
  /-- R142, R192. -/
  marker : s.dec.phase = .marker →
    14 ≤ s.dec.offset ∧ s.dec.offset ≤ inputLength s ∧ inputLength s ≤ s.dec.offset + 8
  /-- R203: no more than 62 pixels a byte of the stream. -/
  pixels : s.dec.pixCount ≤ 62 * (s.dec.offset - 14)
  /-- R203. -/
  total : decBusy s = true → s.dec.pixCount ≤ 62 * (inputLength s - 22)
  /-- R33, R37: an error is recorded at DONE_ERR and nowhere else. -/
  errPhase : s.dec.err ≠ .none ↔ s.dec.phase = .doneErr
  /-- R238. -/
  errKind : s.dec.err ≠ .truncatedStream ∧ s.dec.err ≠ .unrecognizedOpcode
  /-- R230. -/
  errOffset : s.dec.errOff = if s.dec.err = .paddingMismatch then s.dec.offset else 0
  /-- R7, R265: the pixels appended and those still to come can be counted (checked at START), and so can the offset. -/
  narrow : s.dec.pixCount + pixelsToCome s < 2 ^ Config.countW ∧ s.dec.offset < 2 ^ Config.countW

/-- Every memory is in its canonical form. -/
def MemInv (s : State) : Prop :=
  Memory.wf s.inBuf = true ∧ Memory.wf s.outBuf = true ∧ Memory.wf s.pin = true ∧ Memory.wf s.pout = true

/-- The invariant of the machine. -/
structure Inv (s : State) : Prop where
  enc : EncInv s
  dec : DecInv s
  mem : MemInv s

/-- `t` is `s` with `n` copies of `p` appended to POUT at PIXCOUNT, and POUT as before elsewhere (R9, `Put`). -/
def pixelsAppended (s t : State) (p : Pixel) (n : Nat) : Prop :=
  ∀ i, readPout t i = if s.dec.pixCount ≤ i ∧ i < s.dec.pixCount + n then p else readPout s i

/-- OUT of `t` is that of `s` with the bytes `v` appended at OUTLEN, and as before elsewhere (R9, `Emit`). -/
def bytesAppended (s t : State) (v : List Byte) : Prop :=
  (∀ k (h : k < v.length), readOut t (s.enc.outLen + k) = v[k]) ∧
    ∀ a, a < s.enc.outLen ∨ s.enc.outLen + v.length ≤ a → readOut t a = readOut s a

/-- Slot `pixelHash p` holds `p` and every other slot is as before (R166, R193). -/
def storedAtHash (c d : Cache) (p : Pixel) : Prop :=
  ∀ j : Fin 64, cacheRead d j = if j = pixelHash p then p else cacheRead c j

/-- The effect every opcode has beside its cache write: `n` copies of `cur` appended, `prev`, PIXCOUNT and the offset
(R195), and NOTHING ELSE: every other field of the machine is as it was. -/
def opcodeEffect (s t : State) (cur : Pixel) (n len : Nat) : Prop :=
  t = { s with
        pout := t.pout
        dec := { s.dec with
          cache := t.dec.cache, prev := cur, offset := s.dec.offset + len, pixCount := s.dec.pixCount + n } } ∧
    pixelsAppended s t cur n

/-- The bytes of a pending run of length `run`: none, or one RUN opcode (R164, R173). -/
def runBytes (run : Nat) : List Byte := if run = 0 then [] else [0xC0#8 ||| BitVec.ofNat 8 (run - 1)]

/-- What power-on leaves, as far as R48 and the register map (R35) give it: every register of the map reads 0, both
engines are IDLE, no error is recorded, and the state behind every view is at what the view reads. -/
structure AfterPowerOn (s : State) : Prop where
  views : ∀ r : HostReg, regView r s = some 0#32
  encIdle : s.enc.phase = .idle
  decIdle : s.dec.phase = .idle
  noError : s.dec.err = .none ∧ s.dec.errOff = 0
  encCounts : s.enc.outLen = 0 ∧ s.enc.pos = 0
  decCounts : s.dec.offset = 0 ∧ s.dec.pixCount = 0
  header : s.dec.width = 0#32 ∧ s.dec.height = 0#32 ∧ s.dec.channels = .rgb ∧ s.dec.colorspace = .srgb
  config : s.enc.width = 0#32 ∧ s.enc.height = 0#32 ∧ s.enc.channels = .rgb ∧ s.enc.colorspace = .srgb ∧
    s.enc.count = 0#32 ∧ s.dec.inLen = 0#32

/-- Two encode engines that differ at most in what R48 leaves unspecified at power-on, and in nothing once started. -/
def encAlike (e f : EncEngine) : Prop :=
  e = { f with cache := e.cache, prev := e.prev, run := e.run } ∧ (e.phase ≠ .idle → e = f)

/-- Two decode engines that differ at most in what R48 leaves unspecified at power-on, and in nothing once started. -/
def decAlike (d f : DecEngine) : Prop :=
  d = { f with cache := d.cache, prev := d.prev } ∧ (d.phase ≠ .idle → d = f)

/-- Two machines that differ at most in what R48 leaves unspecified at power-on. -/
def alike (s t : State) : Prop :=
  encAlike s.enc t.enc ∧ decAlike s.dec t.dec ∧ s = { t with enc := s.enc, dec := s.dec }

/-- Two outcomes that are the same stop, or next states that are alike. -/
def outcomeAlike : Host.Outcome State Fault Refusal → Host.Outcome State Fault Refusal → Prop
  | .next s, .next t => alike s t
  | .fault f, .fault g => f = g
  | .refused r, .refused q => r = q
  | .next _, .fault _ => False
  | .next _, .refused _ => False
  | .fault _, .next _ => False
  | .fault _, .refused _ => False
  | .refused _, .next _ => False
  | .refused _, .fault _ => False

/-- A run has stopped: a fault or a refusal, both raised by a HOST turn only. -/
def stops : Host.Outcome State Fault Refusal → Prop
  | .next _ => False
  | .fault _ => True
  | .refused _ => True

end Sys2Proof.Machine
end

