-- ==== Sys2Proof/Certificates/Slice0/Obligations.lean ====
section
/-! DEFINITION. The statements for the provers: what the numbered rules of the spec say of this machine. -/

open Sys2Proof Sys2Proof.Machine

/-! Encoding -/

/-- The words of the source's own opcode formulas (95 S1), each written out from the format and decoded. -/
def Obligations.OpcodeWordsDecodeToTheirOpcodes : Prop :=
  decodeTableWord 8 0x09 = some (.index 9) ∧
  decodeTableWord 8 0x7A = some (.diff 1 0 0) ∧
  decodeTableWord 16 0xA5A8 = some (.luma 8 2 (-3)) ∧
  decodeTableWord 8 0xFD = some (.run 62) ∧
  decodeTableWord 32 0xC89664FE = some (.rgb 100 150 200) ∧
  decodeTableWord 40 0x04030201FF = some (.rgba 1 2 3 4)

/-- Encoding then decoding gives every well-formed opcode back, with every operand at every value of its field (R77:
"This is exact for every value in the field's range"), whatever bytes follow. -/
def Obligations.DecodeOfEncodeIsTheOpcode : Prop :=
  ∀ (i : Instr) (rest : List Byte), i.wellFormed = true → decode (encode i ++ rest) = .ok (i, rest)

/-- Whatever decodes is a well-formed opcode, and encoding it gives exactly the bytes that were read: every byte has one
meaning, and no other opcode shares it. -/
def Obligations.EncodeOfDecodeIsTheBytesRead : Prop :=
  ∀ (bs rest : List Byte) (i : Instr), decode bs = .ok (i, rest) → i.wellFormed = true ∧ encode i ++ rest = bs

/-- R78's byte ranges: the classifier is total over the 256 byte values, and RGB and RGBA win over RUN. -/
def Obligations.KindOfEveryByte : Prop :=
  ∀ b : Byte, opKind b = some
    (if b.toNat ≤ 0x3F then .index else if b.toNat ≤ 0x7F then .diff else if b.toNat ≤ 0xBF then .luma
      else if b.toNat ≤ 0xFD then .run else if b.toNat = 0xFE then .rgb else .rgba)

/-- R79, R80: the first byte alone gives the length; every byte sequence that long decodes, reads exactly that many
bytes, and the bytes after the first change neither the length nor whether it decodes. -/
def Obligations.EveryByteSequenceDecodesByItsFirstByte : Prop :=
  ∀ (b0 : Byte) (t : List Byte), opLen b0 ≤ t.length + 1 →
    ∃ i, decode (b0 :: t) = .ok (i, (b0 :: t).drop (opLen b0)) ∧ (encode i).length = opLen b0

/-- R82: the assembler refuses a program exactly when some line has an operand outside its field's range, and a program
it accepts gives, line after line, the bytes of R82's table. -/
def Obligations.AssemblerRefusesExactlyOperandsOutOfRange : Prop :=
  ∀ ls : List Line,
    (assemble ls = none ↔ ∃ l ∈ ls, l.wellFormed = false) ∧
    ∀ bs, assemble ls = some bs → bs = ls.flatMap fun l => match l with
      | .op (.index i) => [BitVec.ofNat 8 i.val]
      | .op (.diff dr dg db) => [BitVec.ofInt 8 (0x40 + (dr + 2) * 16 + (dg + 2) * 4 + (db + 2))]
      | .op (.luma dg drg dbg) =>
        [BitVec.ofInt 8 (0x80 + (dg + 32)), BitVec.ofInt 8 ((drg + 8) * 16 + (dbg + 8))]
      | .op (.run len) => [BitVec.ofNat 8 (0xC0 + (len - 1))]
      | .op (.rgb r g b) => [0xFE#8, r, g, b]
      | .op (.rgba r g b a) => [0xFF#8, r, g, b, a]
      | .header w h ch cs => headerBytes w h ch cs
      | .endMark => [0#8, 0#8, 0#8, 0#8, 0#8, 0#8, 0#8, 1#8]

/-! Arithmetic -/

/-- R101: the truncating remainder leaves the difference of two channel values as it is, in [-255, 255]. -/
def Obligations.DeltaIsTheExactDifference : Prop :=
  ∀ a b : Byte, delta a b = (a.toNat : Int) - (b.toNat : Int) ∧ -255 ≤ delta a b ∧ delta a b ≤ 255

/-- R106: wrapping addition is addition modulo 256. -/
def Obligations.WrapAddIsAdditionModulo256 : Prop :=
  ∀ (c : Byte) (d : Int), ((wrapAdd c d).toNat : Int) = ((c.toNat : Int) + d) % 256

/-- R109, laws 1 and 2: what the encoder measures, the decoder adds back, for DIFF's deltas and through LUMA's cross
deltas. -/
def Obligations.MeasuredDeltasAddBack : Prop :=
  ∀ p q : Pixel, p.a = q.a →
    addDeltas q (delta p.r q.r) (delta p.g q.g) (delta p.b q.b) = p ∧
    addDeltas q (crossDelta (delta p.r q.r) (delta p.g q.g) + delta p.g q.g) (delta p.g q.g)
      (crossDelta (delta p.b q.b) (delta p.g q.g) + delta p.g q.g) = p

/-- R103: the hash is the weighted sum modulo 64, at most 6630 before the modulus, and computing it in 6-bit wrapping
arithmetic gives the same slot. -/
def Obligations.HashIsTheWeightedSumModulo64 : Prop :=
  ∀ p : Pixel,
    (pixelHash p).val = (p.r.toNat * 3 + p.g.toNat * 5 + p.b.toNat * 7 + p.a.toNat * 11) % 64 ∧
    hashSum p ≤ 6630 ∧
    (pixelHash p).val = (p.r.setWidth 6 * 3#6 + p.g.setWidth 6 * 5#6 + p.b.setWidth 6 * 7#6 + p.a.setWidth 6 * 11#6).toNat

/-- R105, R107, R108: exact equality, alpha equality, and the two range tests with their asymmetric bounds. -/
def Obligations.SelectorTestsAreTheStatedComparisons : Prop :=
  (∀ p q : Pixel, (pixelEq p q = true ↔ p = q) ∧ (alphaEq p q = true ↔ p.a = q.a)) ∧
  (∀ dr dg db : Int, fitsDiff dr dg db = true ↔
    (-2 ≤ dr ∧ dr ≤ 1) ∧ (-2 ≤ dg ∧ dg ≤ 1) ∧ (-2 ≤ db ∧ db ≤ 1)) ∧
  (∀ dg drg dbg : Int, fitsLuma dg drg dbg = true ↔
    (-32 ≤ dg ∧ dg ≤ 31) ∧ (-8 ≤ drg ∧ drg ≤ 7) ∧ (-8 ≤ dbg ∧ dbg ≤ 7))

/-- R46, R53: the two layouts of a pixel. Red is bits [31:24] of the word and byte 0 of the four, down to alpha; the
word gives the pixel back. -/
def Obligations.PixelLayoutsHoldEveryChannel : Prop :=
  ∀ p : Pixel,
    (pixelWord p).toNat = p.r.toNat * 2 ^ 24 + p.g.toNat * 2 ^ 16 + p.b.toNat * 2 ^ 8 + p.a.toNat ∧
    wordPixel (pixelWord p) = p ∧
    (pixelByte p 0 = p.r ∧ pixelByte p 1 = p.g ∧ pixelByte p 2 = p.b ∧ pixelByte p 3 = p.a)

/-! The frame -/

/-- R131, R132: the 14 bytes the header writer gives. -/
def Obligations.HeaderWriterGivesTheFourteenBytes : Prop :=
  ∀ (w h : Word) (ch : ChannelTag) (cs : ColorTag),
    headerBytes w h ch cs =
      [0x71#8, 0x6F#8, 0x69#8, 0x66#8,
       BitVec.ofNat 8 (w.toNat / 2 ^ 24), BitVec.ofNat 8 (w.toNat / 2 ^ 16), BitVec.ofNat 8 (w.toNat / 2 ^ 8),
       BitVec.ofNat 8 w.toNat,
       BitVec.ofNat 8 (h.toNat / 2 ^ 24), BitVec.ofNat 8 (h.toNat / 2 ^ 16), BitVec.ofNat 8 (h.toNat / 2 ^ 8),
       BitVec.ofNat 8 h.toNat,
       (match ch with | .rgb => 3#8 | .rgba => 4#8 | .unknown => 1#8),
       (match cs with | .srgb => 0#8 | .linear => 1#8 | .unknown => 2#8)]

/-- R139: a written header parses back to its four fields, whatever follows it. -/
def Obligations.HeaderRoundTrip : Prop :=
  ∀ (w h : Word) (ch : ChannelTag) (cs : ColorTag) (t : List Byte),
    parseHeader (fun k => (headerBytes w h ch cs ++ t).getD k 0#8) (14 + t.length) = .ok ⟨w, h, ch, cs⟩

/-- R142, R141: the marker is accepted exactly when 8 bytes remain and they are seven zeros and a one. -/
def Obligations.MarkerAcceptedExactlyWhenItIsAllThatRemains : Prop :=
  ∀ (rd : Nat → Byte) (o n : Nat), markerOk rd o n = true ↔
    n = o + 8 ∧ (∀ k, k < 7 → rd (o + k) = 0x00#8) ∧ rd (o + 7) = 0x01#8

/-- R133 to R138: the header step raises HeaderTooShort, then InvalidMagic, at offset 0, and otherwise writes the four
header registers, whatever the fields are, and enters STREAM at offset 14; nothing else changes. -/
def Obligations.HeaderStepParsesOrRaises : Prop :=
  ∀ s : State, s.dec.phase = .header →
    (inputLength s < 14 →
      decTurn s = .next { s with dec := { s.dec with err := .headerTooShort, errOff := 0, phase := .doneErr } }) ∧
    (14 ≤ inputLength s →
      ¬ (readIn s 0 = 0x71#8 ∧ readIn s 1 = 0x6F#8 ∧ readIn s 2 = 0x69#8 ∧ readIn s 3 = 0x66#8) →
      decTurn s = .next { s with dec := { s.dec with err := .invalidMagic, errOff := 0, phase := .doneErr } }) ∧
    (14 ≤ inputLength s →
      (readIn s 0 = 0x71#8 ∧ readIn s 1 = 0x6F#8 ∧ readIn s 2 = 0x69#8 ∧ readIn s 3 = 0x66#8) →
      ∃ w h : Word,
        w.toNat = (readIn s 4).toNat * 2 ^ 24 + (readIn s 5).toNat * 2 ^ 16 + (readIn s 6).toNat * 2 ^ 8 +
          (readIn s 7).toNat ∧
        h.toNat = (readIn s 8).toNat * 2 ^ 24 + (readIn s 9).toNat * 2 ^ 16 + (readIn s 10).toNat * 2 ^ 8 +
          (readIn s 11).toNat ∧
        decTurn s = .next { s with dec := { s.dec with
          width := w, height := h,
          channels := if readIn s 12 = 3#8 then .rgb else if readIn s 12 = 4#8 then .rgba else .unknown,
          colorspace := if readIn s 13 = 0#8 then .srgb else if readIn s 13 = 1#8 then .linear else .unknown,
          offset := 14, phase := .stream } })

/-- R204: the marker step ends the decode well when the marker is all that remains, and otherwise raises PaddingMismatch
at the offset the loop stopped at; nothing else changes. -/
def Obligations.MarkerStepEndsTheDecode : Prop :=
  ∀ s : State, s.dec.phase = .marker →
    (markerOk (readIn s) s.dec.offset (inputLength s) = true →
      decTurn s = .next { s with dec := { s.dec with phase := .doneOk } }) ∧
    (markerOk (readIn s) s.dec.offset (inputLength s) = false →
      decTurn s = .next { s with dec := { s.dec with
        err := .paddingMismatch, errOff := s.dec.offset, phase := .doneErr } })

/-! The six opcodes: what the bytes are, that the opcode completes from every state, its result and its frame -/

/-- R198, R71 (and R193, R195, R210 for it): INDEX appends the slot's pixel once and stores it at its own hash, which
may be another slot; it completes from every state and changes nothing else. -/
def Obligations.IndexAppendsTheSlotsPixel : Prop :=
  (∀ (b0 : Byte) (rest : List Byte), b0.toNat ≤ 0x3F →
    ∃ i : Fin 64, i.val = b0.toNat ∧ decode (b0 :: rest) = .ok (.index i, rest) ∧ encode (.index i) = [b0]) ∧
  ∀ (i : Fin 64) (s : State), ∃ t, exec (.index i) s = .next t ∧
    opcodeEffect s t (cacheRead s.dec.cache i) 1 1 ∧
    storedAtHash s.dec.cache t.dec.cache (cacheRead s.dec.cache i)

/-- R199, R72: DIFF adds three biased two-bit deltas to the previous pixel modulo 256, keeps alpha, stores and appends;
with every delta in its field's range it completes from every state and changes nothing else. -/
def Obligations.DiffAddsSmallDeltas : Prop :=
  (∀ (b0 : Byte) (rest : List Byte), 0x40 ≤ b0.toNat → b0.toNat ≤ 0x7F →
    decode (b0 :: rest) =
      .ok (.diff (b0.toNat / 16 % 4 - 2) (b0.toNat / 4 % 4 - 2) (b0.toNat % 4 - 2), rest)) ∧
  ∀ (dr dg db : Int) (s : State), (Instr.diff dr dg db).wellFormed = true → ∃ t, exec (.diff dr dg db) s = .next t ∧
    opcodeEffect s t
      ⟨BitVec.ofInt 8 (s.dec.prev.r.toNat + dr), BitVec.ofInt 8 (s.dec.prev.g.toNat + dg),
        BitVec.ofInt 8 (s.dec.prev.b.toNat + db), s.dec.prev.a⟩ 1 1 ∧
    storedAtHash s.dec.cache t.dec.cache t.dec.prev

/-- R200, R73: LUMA adds `dg` to green and `dr_g + dg`, `db_g + dg` to red and blue, modulo 256, keeps alpha, stores and
appends; with every delta in its field's range it completes from every state and changes nothing else. -/
def Obligations.LumaAddsTheGreenDeltaToTheCrossDeltas : Prop :=
  (∀ (b0 b1 : Byte) (rest : List Byte), 0x80 ≤ b0.toNat → b0.toNat ≤ 0xBF →
    decode (b0 :: b1 :: rest) =
      .ok (.luma (b0.toNat % 64 - 32) (b1.toNat / 16 - 8) (b1.toNat % 16 - 8), rest)) ∧
  ∀ (dg drg dbg : Int) (s : State), (Instr.luma dg drg dbg).wellFormed = true → ∃ t, exec (.luma dg drg dbg) s = .next t ∧
    opcodeEffect s t
      ⟨BitVec.ofInt 8 (s.dec.prev.r.toNat + (drg + dg)), BitVec.ofInt 8 (s.dec.prev.g.toNat + dg),
        BitVec.ofInt 8 (s.dec.prev.b.toNat + (dbg + dg)), s.dec.prev.a⟩ 1 2 ∧
    storedAtHash s.dec.cache t.dec.cache t.dec.prev

/-- R201, R74: RUN appends the previous pixel `len` times and writes no cache slot; with `len` in [1, 62] it completes
from every state and changes nothing else. -/
def Obligations.RunRepeatsThePreviousPixel : Prop :=
  (∀ (b0 : Byte) (rest : List Byte), 0xC0 ≤ b0.toNat → b0.toNat ≤ 0xFD →
    decode (b0 :: rest) = .ok (.run (b0.toNat % 64 + 1), rest) ∧ encode (.run (b0.toNat % 64 + 1)) = [b0]) ∧
  ∀ (len : Nat) (s : State), 1 ≤ len → len ≤ 62 → ∃ t, exec (.run len) s = .next t ∧
    opcodeEffect s t s.dec.prev len 1 ∧ t.dec.cache = s.dec.cache

/-- R196, R75: RGB appends the raw channels with the previous pixel's alpha; it completes from every state and changes
nothing else. -/
def Obligations.RgbTakesAlphaFromThePreviousPixel : Prop :=
  (∀ (r g b : Byte) (rest : List Byte),
    decode (0xFE#8 :: r :: g :: b :: rest) = .ok (.rgb r g b, rest) ∧ encode (.rgb r g b) = [0xFE#8, r, g, b]) ∧
  ∀ (r g b : Byte) (s : State), ∃ t, exec (.rgb r g b) s = .next t ∧
    opcodeEffect s t ⟨r, g, b, s.dec.prev.a⟩ 1 4 ∧
    storedAtHash s.dec.cache t.dec.cache ⟨r, g, b, s.dec.prev.a⟩

/-- R197, R76: RGBA appends the raw channels; it completes from every state and changes nothing else. -/
def Obligations.RgbaTakesAllFourChannels : Prop :=
  (∀ (r g b a : Byte) (rest : List Byte),
    decode (0xFF#8 :: r :: g :: b :: a :: rest) = .ok (.rgba r g b a, rest) ∧
      encode (.rgba r g b a) = [0xFF#8, r, g, b, a]) ∧
  ∀ (r g b a : Byte) (s : State), ∃ t, exec (.rgba r g b a) s = .next t ∧
    opcodeEffect s t ⟨r, g, b, a⟩ 1 5 ∧ storedAtHash s.dec.cache t.dec.cache ⟨r, g, b, a⟩

/-! The step -/

/-- R10, R20: a step is one turn of the agent whose turn it is, at the state whose turn is taken off the schedule: a step
of the encode engine, a step of the decode engine, or the host's oldest pending action (nothing, when none is pending,
log 2). Whose turn it is, and the host's queue, are the model's choices (logs 1 and 14). And a step runs the decoded
opcode: on the decode engine's turn in STREAM, inside the loop bound (R192), when IN holds at the offset the bytes of a
well-formed opcode, the step is that opcode's meaning. -/
def Obligations.StepRunsTheDecodedOpcode : Prop :=
  (∀ s : State,
    takeTurn s = { s with sched := s.sched.tail } ∧
    (∀ a rest, s.sched = a :: rest → nextAgent s = a) ∧
    (s.sched = [] → nextAgent s = if decBusy s then .dec else if encBusy s then .enc else .host) ∧
    (nextAgent s = .enc → step s = .next (encTurn (takeTurn s))) ∧
    (nextAgent s = .dec → step s = decTurn (takeTurn s)) ∧
    (∀ act rest, nextAgent s = .host → s.pending = act :: rest →
      step s = hostAct act { takeTurn s with pending := rest }) ∧
    (nextAgent s = .host → s.pending = [] → step s = .next (takeTurn s))) ∧
  ∀ (s : State) (i : Instr), i.wellFormed = true → nextAgent s = .dec → s.dec.phase = .stream →
    s.dec.offset + 8 < inputLength s →
    (∀ k (h : k < (encode i).length), readIn s (s.dec.offset + k) = (encode i)[k]) →
    step s = exec i (takeTurn s)

/-- MODEL'S CHOICE (log 13): an opcode-table word placed by `withFetchWord` decodes, and the very next step, from every
state, runs exactly that opcode. -/
def Obligations.PlacedWordIsTheNextOpcodeRun : Prop :=
  ∀ (s : State) (nbits w : Nat), ∃ i, decodeTableWord nbits w = some i ∧
    step (s.withFetchWord nbits w) = exec i (takeTurn (s.withFetchWord nbits w))

/-- R192 (with log 3 for its being a turn of its own): at the loop bound the engine enters MARKER and changes nothing
else. -/
def Obligations.LoopStopsEightBytesBeforeTheEnd : Prop :=
  ∀ s : State, s.dec.phase = .stream → inputLength s ≤ s.dec.offset + 8 →
    decTurn s = .next { s with dec := { s.dec with phase := .marker } }

/-- R231, R232: whatever step enters DONE_ERR records one of its own error kinds at its own offset and does nothing
else. -/
def Obligations.ErrorEntryRecordsItsCauseAndNothingElse : Prop :=
  ∀ s t : State, decTurn s = .next t → s.dec.phase ≠ .doneErr → t.dec.phase = .doneErr →
    t = { s with dec := { s.dec with err := t.dec.err, errOff := t.dec.errOff, phase := .doneErr } } ∧
    ((s.dec.phase = .header ∧ (t.dec.err = .headerTooShort ∨ t.dec.err = .invalidMagic) ∧ t.dec.errOff = 0) ∨
     (s.dec.phase = .stream ∧ (t.dec.err = .truncatedStream ∨ t.dec.err = .unrecognizedOpcode) ∧
       t.dec.errOff = s.dec.offset) ∨
     (s.dec.phase = .marker ∧ t.dec.err = .paddingMismatch ∧ t.dec.errOff = s.dec.offset))

/-- R194, R202, R238: no opcode step of any state, reachable or not, raises TruncatedStream or UnrecognizedOpcode; it
stays in STREAM, or leaves for MARKER, with the error registers as they were. -/
def Obligations.OpcodeStepsRaiseNoError : Prop :=
  ∀ s : State, s.dec.phase = .stream → ∃ t, decTurn s = .next t ∧
    (t.dec.phase = .stream ∨ t.dec.phase = .marker) ∧ t.dec.err = s.dec.err ∧ t.dec.errOff = s.dec.errOff

/-- R210's worked example, as a law: an INDEX of a slot whose content hashes to another slot evicts what that other slot
held and leaves the slot it read. -/
def Obligations.IndexOfAForeignSlotEvictsAnother : Prop :=
  ∀ (i : Fin 64) (s t : State), pixelHash (cacheRead s.dec.cache i) ≠ i → exec (.index i) s = .next t →
    cacheRead t.dec.cache (pixelHash (cacheRead s.dec.cache i)) = cacheRead s.dec.cache i ∧
    cacheRead t.dec.cache i = cacheRead s.dec.cache i

/-! The encode engine -/

/-- R160: the header step appends the header of the configuration registers and goes on to the pixels, or to FINISH when
there are none; nothing else changes. -/
def Obligations.EncodeHeaderStepWritesTheHeader : Prop :=
  ∀ s : State, s.enc.phase = .header →
    bytesAppended s (encTurn s) (headerBytes s.enc.width s.enc.height s.enc.channels s.enc.colorspace) ∧
    encTurn s = { s with
      outBuf := (encTurn s).outBuf
      enc := { s.enc with
        outLen := s.enc.outLen + 14, phase := if s.enc.count = 0#32 then .finish else .pixels } }

/-- R163, R171: a pixel equal to the previous one lengthens the run; the 62nd flushes it as `FD` and clears it. The
cache is untouched, and nothing else changes. -/
def Obligations.EqualPixelExtendsTheRun : Prop :=
  ∀ s : State, s.enc.phase = .pixels → s.enc.pos < pixelCount s → readPin s s.enc.pos = s.enc.prev →
    bytesAppended s (encTurn s) (if s.enc.run = 61 then [0xFD#8] else []) ∧
    encTurn s = { s with
      outBuf := (encTurn s).outBuf
      enc := { s.enc with
        run := if s.enc.run = 61 then 0 else s.enc.run + 1
        outLen := s.enc.outLen + (if s.enc.run = 61 then 1 else 0)
        pos := s.enc.pos + 1
        phase := if s.enc.pos + 1 = pixelCount s then .finish else .pixels } }

/-- R164, R165, R171: a different pixel that its slot holds is written as INDEX of its hash, after any pending run,
whatever its alpha; the cache is untouched, and nothing else changes. The run is between steps, so at most 61 (R23). -/
def Obligations.CachedPixelIsWrittenAsIndex : Prop :=
  ∀ s : State, s.enc.phase = .pixels → s.enc.pos < pixelCount s → readPin s s.enc.pos ≠ s.enc.prev →
    cacheRead s.enc.cache (pixelHash (readPin s s.enc.pos)) = readPin s s.enc.pos →
    bytesAppended s (encTurn s) (runBytes s.enc.run ++ [BitVec.ofNat 8 (pixelHash (readPin s s.enc.pos)).val]) ∧
    encTurn s = { s with
      outBuf := (encTurn s).outBuf
      enc := { s.enc with
        run := 0
        outLen := s.enc.outLen + (runBytes s.enc.run).length + 1
        prev := readPin s s.enc.pos
        pos := s.enc.pos + 1
        phase := if s.enc.pos + 1 = pixelCount s then .finish else .pixels } }

/-- R164, R166 to R171: a different pixel that misses the cache is stored at its hash and written, after any pending run,
as RGBA when alpha changed, else as the first of DIFF, LUMA and RGB whose ranges its exact deltas fit; nothing else
changes. -/
def Obligations.MissedPixelIsStoredAndWritten : Prop :=
  ∀ s : State, s.enc.phase = .pixels → s.enc.pos < pixelCount s → readPin s s.enc.pos ≠ s.enc.prev →
    cacheRead s.enc.cache (pixelHash (readPin s s.enc.pos)) ≠ readPin s s.enc.pos →
    let p := readPin s s.enc.pos
    let q := s.enc.prev
    let dr : Int := p.r.toNat - q.r.toNat
    let dg : Int := p.g.toNat - q.g.toNat
    let db : Int := p.b.toNat - q.b.toNat
    let code : List Byte :=
      if p.a ≠ q.a then [0xFF#8, p.r, p.g, p.b, p.a]
      else if (-2 ≤ dr ∧ dr ≤ 1) ∧ (-2 ≤ dg ∧ dg ≤ 1) ∧ (-2 ≤ db ∧ db ≤ 1) then
        [BitVec.ofInt 8 (0x40 + (dr + 2) * 16 + (dg + 2) * 4 + (db + 2))]
      else if (-32 ≤ dg ∧ dg ≤ 31) ∧ (-8 ≤ dr - dg ∧ dr - dg ≤ 7) ∧ (-8 ≤ db - dg ∧ db - dg ≤ 7) then
        [BitVec.ofInt 8 (0x80 + (dg + 32)), BitVec.ofInt 8 ((dr - dg + 8) * 16 + (db - dg + 8))]
      else [0xFE#8, p.r, p.g, p.b]
    bytesAppended s (encTurn s) (runBytes s.enc.run ++ code) ∧
    storedAtHash s.enc.cache (encTurn s).enc.cache p ∧
    encTurn s = { s with
      outBuf := (encTurn s).outBuf
      enc := { s.enc with
        cache := (encTurn s).enc.cache
        run := 0
        outLen := s.enc.outLen + (runBytes s.enc.run).length + code.length
        prev := p
        pos := s.enc.pos + 1
        phase := if s.enc.pos + 1 = pixelCount s then .finish else .pixels } }

/-- R173, R140, R141: the finish step flushes a pending run, appends the marker and completes; nothing else changes. -/
def Obligations.FinishStepFlushesAndWritesTheMarker : Prop :=
  ∀ s : State, s.enc.phase = .finish →
    bytesAppended s (encTurn s)
      (runBytes s.enc.run ++ [0#8, 0#8, 0#8, 0#8, 0#8, 0#8, 0#8, 1#8]) ∧
    encTurn s = { s with
      outBuf := (encTurn s).outBuf
      enc := { s.enc with
        run := 0, outLen := s.enc.outLen + (runBytes s.enc.run).length + 8, phase := .done } }

/-- R241: an encode of M pixels ends after exactly M + 2 steps of the encode engine. -/
def Obligations.EncodeEndsAfterItsPixelsAndTwoSteps : Prop :=
  ∀ (s : State) (k : Nat), k ≤ pixelCount s + 2 →
    ((encRun k (encStart s)).enc.phase = .done ↔ k = pixelCount s + 2)

/-- R175: the frame of M pixels has from 22 + ceil(M / 62) to 22 + 5M bytes. -/
def Obligations.FrameLengthIsWithinItsBounds : Prop :=
  ∀ s : State,
    22 + (pixelCount s + 61) / 62 ≤ (encRun (pixelCount s + 2) (encStart s)).enc.outLen ∧
    (encRun (pixelCount s + 2) (encStart s)).enc.outLen ≤ 22 + 5 * pixelCount s

/-- R176: after the header, no encode step depends on the width, the height or the tags. -/
def Obligations.PixelStepsReadNoHeaderField : Prop :=
  ∀ (s : State) (w h : Word) (ch : ChannelTag) (cs : ColorTag), s.enc.phase ≠ .header →
    encTurn { s with enc := { s.enc with width := w, height := h, channels := ch, colorspace := cs } } =
      { encTurn s with
        enc := { (encTurn s).enc with width := w, height := h, channels := ch, colorspace := cs } }

/-! The host -/

/-- R36, R49, R161, R191, with the launch premises of R265 and R7 (where the spec lets a model refuse, log 10): a write of
CTRL with bit 0 clear, or while BUSY, does nothing; otherwise it seeds the engine, clears its progress and result
registers and enters HEADER, or is refused when a premise does not hold; the other bits do not matter, nothing else
changes, and CTRL reads 0. -/
def Obligations.StartSeedsAnEngineThatIsNotBusy : Prop :=
  ∀ (s : State) (v : Word),
    (v.getLsbD 0 = false ∨ encBusy s = true → hostAct (.writeReg 0x00 4 v) s = .next s) ∧
    (v.getLsbD 0 = true → encBusy s = false →
      ((22 + 5 * s.enc.count.toNat < 2 ^ 32 ∧ 22 + 5 * s.enc.count.toNat ≤ s.outRoom) →
        ∃ c : Cache, (∀ j : Fin 64, cacheRead c j = ⟨0#8, 0#8, 0#8, 0#8⟩) ∧
          hostAct (.writeReg 0x00 4 v) s = .next { s with enc := { s.enc with
            cache := c, prev := ⟨0#8, 0#8, 0#8, 255#8⟩, run := 0, pos := 0, outLen := 0, phase := .header } }) ∧
      (¬ (22 + 5 * s.enc.count.toNat < 2 ^ 32 ∧ 22 + 5 * s.enc.count.toNat ≤ s.outRoom) →
        hostAct (.writeReg 0x00 4 v) s = .refused .launchPremise)) ∧
    (v.getLsbD 0 = false ∨ decBusy s = true → hostAct (.writeReg 0x20 4 v) s = .next s) ∧
    (v.getLsbD 0 = true → decBusy s = false →
      ((62 * (s.dec.inLen.toNat - 22) ≤ s.poutRoom ∧ producedPixels s < 2 ^ 32) →
        ∃ c : Cache, (∀ j : Fin 64, cacheRead c j = ⟨0#8, 0#8, 0#8, 0#8⟩) ∧
          hostAct (.writeReg 0x20 4 v) s = .next { s with dec := { s.dec with
            cache := c, prev := ⟨0#8, 0#8, 0#8, 255#8⟩, offset := 0, pixCount := 0, width := 0#32, height := 0#32,
            channels := .rgb, colorspace := .srgb, err := .none, errOff := 0, phase := .header } }) ∧
      (¬ (62 * (s.dec.inLen.toNat - 22) ≤ s.poutRoom ∧ producedPixels s < 2 ^ 32) →
        hostAct (.writeReg 0x20 4 v) s = .refused .launchPremise)) ∧
    regView .encCtrl s = some 0#32 ∧ regView .decCtrl s = some 0#32

/-- R45: while its engine is BUSY a write of a configuration register is ignored; otherwise a write of a full-width one is
stored and nothing else changes; and each of the four full-width ones shows what it holds, in every state, so that a
value written is read back (R38, R40, R42, R267). ENC_FORMAT is in `FormatIsWriteAnyReadLegal`. -/
def Obligations.ConfigurationWritesAreIgnoredWhileBusy : Prop :=
  ∀ (s : State) (v : Word),
    (encBusy s = true → ∀ o ∈ [0x08, 0x0C, 0x10, 0x14], hostAct (.writeReg o 4 v) s = .next s) ∧
    (decBusy s = true → hostAct (.writeReg 0x28 4 v) s = .next s) ∧
    (encBusy s = false →
      hostAct (.writeReg 0x08 4 v) s = .next { s with enc := { s.enc with width := v } } ∧
      hostAct (.writeReg 0x0C 4 v) s = .next { s with enc := { s.enc with height := v } } ∧
      hostAct (.writeReg 0x14 4 v) s = .next { s with enc := { s.enc with count := v } }) ∧
    (decBusy s = false → hostAct (.writeReg 0x28 4 v) s = .next { s with dec := { s.dec with inLen := v } }) ∧
    (regView .encWidth s = some s.enc.width ∧ regView .encHeight s = some s.enc.height ∧
      regView .encCount s = some s.enc.count ∧ regView .decInLen s = some s.dec.inLen)

/-- R39: a write of ENC_FORMAT stores the tags of its two 2-bit codes, 3 stored as UNKNOWN, and ignores every other bit;
both FORMAT registers show their tags' codes, and every reserved bit 0; and whatever a host read of DEC_FORMAT returns,
in any state, its fields hold legal codes and its reserved bits 0, also where its tags are no result (log 7). -/
def Obligations.FormatIsWriteAnyReadLegal : Prop :=
  (∀ (s : State) (v : Word), encBusy s = false →
    hostAct (.writeReg 0x10 4 v) s = .next { s with enc := { s.enc with
      channels := if v.toNat % 4 = 0 then .rgb else if v.toNat % 4 = 1 then .rgba else .unknown
      colorspace := if v.toNat / 4 % 4 = 0 then .srgb else if v.toNat / 4 % 4 = 1 then .linear else .unknown } }) ∧
  (∀ (s t : State) (rest : List Reply) (w : Word),
    hostAct (.readReg 0x34 4) s = .next t → t.replies = .word w :: rest →
    w.toNat % 4 ≤ 2 ∧ w.toNat / 4 % 4 ≤ 2 ∧ w.toNat / 16 = 0) ∧
  ∀ s : State,
    regView .encFormat s = some (BitVec.ofNat 32 (
      (match s.enc.channels with | .rgb => 0 | .rgba => 1 | .unknown => 2) +
      4 * (match s.enc.colorspace with | .srgb => 0 | .linear => 1 | .unknown => 2))) ∧
    regView .decFormat s = some (BitVec.ofNat 32 (
      (match s.dec.channels with | .rgb => 0 | .rgba => 1 | .unknown => 2) +
      4 * (match s.dec.colorspace with | .srgb => 0 | .linear => 1 | .unknown => 2)))

/-- R37, R230: what the STATUS registers show in every phase, ERR at bits [6:4]; and in every state the invariant allows
ERR is 0 but at DONE_ERR. -/
def Obligations.StatusShowsTheStateAndTheError : Prop :=
  ∀ s : State,
    regView .encStatus s = some (match s.enc.phase with
      | .idle => 0#32 | .header => 1#32 | .pixels => 1#32 | .finish => 1#32 | .done => 2#32) ∧
    (∃ w, regView .decStatus s = some w ∧
      w.toNat = (match s.dec.phase with
        | .idle => 0 | .header => 1 | .stream => 1 | .marker => 1 | .doneOk => 2 | .doneErr => 3) +
        16 * (match s.dec.err with
        | .none => 0 | .headerTooShort => 1 | .invalidMagic => 2 | .truncatedStream => 3
        | .unrecognizedOpcode => 4 | .paddingMismatch => 5) ∧
      (Inv s → s.dec.phase ≠ .doneErr → w.toNat / 16 = 0))

/-- R41 to R44: the read-only views, DEC_OFFSET showing the recorded offset at DONE_ERR and the running one otherwise.
The counts are those that fit a register (R7). -/
def Obligations.ProgressRegistersShowTheEngines : Prop :=
  ∀ s : State, s.enc.outLen < 2 ^ 32 → s.enc.pos < 2 ^ 32 → s.dec.pixCount < 2 ^ 32 → s.dec.offset < 2 ^ 32 →
    s.dec.errOff < 2 ^ 32 →
    regView .encOutLen s = some (BitVec.ofNat 32 s.enc.outLen) ∧
    regView .encPos s = some (BitVec.ofNat 32 s.enc.pos) ∧
    regView .decPixCount s = some (BitVec.ofNat 32 s.dec.pixCount) ∧
    regView .decWidth s = some s.dec.width ∧ regView .decHeight s = some s.dec.height ∧
    regView .decOffset s =
      some (BitVec.ofNat 32 (if s.dec.phase = .doneErr then s.dec.errOff else s.dec.offset))

/-- R35, R57, R245, R263: a read returns the register's view, or the buffer's element, to the host and changes nothing
else; the register views do so also while BUSY (R245). A read of what is no result (OUT while ENC is BUSY, POUT while DEC
is BUSY or at DONE_ERR, the four header and count views at DONE_ERR: R233, R263) returns some value, which 93 leaves open,
and changes nothing but the replies and the model's counter of free values (log 7). MODEL'S CHOICES: OUT and POUT show
their final content as soon as the engine is done, also before the host has read DONE in STATUS (log 20), and, after a
power-on, what an invocation that it cut, or a failed one, had written (log 21); and no index is checked against a buffer's room
(log 19). -/
def Obligations.ReadsReturnWhatIsThereAndChangeNothing : Prop :=
  (∀ (s : State) (r : HostReg) (offset : Nat) (w : Word), accessedReg offset 4 = some r → regView r s = some w →
    (s.dec.phase = .doneErr → offset ∉ [0x2C, 0x30, 0x34, 0x38]) →
    hostAct (.readReg offset 4) s = .next { s with replies := .word w :: s.replies }) ∧
  (∀ s : State, s.dec.phase = .doneErr → ∀ offset ∈ [0x2C, 0x30, 0x34, 0x38], ∃ w,
    hostAct (.readReg offset 4) s = .next { s with replies := .word w :: s.replies, draws := s.draws + 1 }) ∧
  (∀ (s : State) (a : Nat),
    hostAct (.readIn a) s = .next { s with replies := .byte (readIn s a) :: s.replies } ∧
    hostAct (.readPin a) s = .next { s with replies := .pixel (readPin s a) :: s.replies }) ∧
  (∀ (s : State) (a : Nat), encBusy s = false →
    hostAct (.readOut a) s = .next { s with replies := .byte (readOut s a) :: s.replies }) ∧
  (∀ (s : State) (a : Nat), encBusy s = true → ∃ b,
    hostAct (.readOut a) s = .next { s with replies := .byte b :: s.replies, draws := s.draws + 1 }) ∧
  (∀ (s : State) (a : Nat), decBusy s = false → s.dec.phase ≠ .doneErr →
    hostAct (.readPout a) s = .next { s with replies := .pixel (readPout s a) :: s.replies } ∧
    hostAct (.readPoutByte a) s =
      .next { s with replies := .byte (pixelByte (readPout s (a / 4)) (a % 4)) :: s.replies }) ∧
  (∀ (s : State) (a : Nat), decBusy s = true ∨ s.dec.phase = .doneErr →
    (∃ p, hostAct (.readPout a) s = .next { s with replies := .pixel p :: s.replies, draws := s.draws + 1 }) ∧
    (∃ b, hostAct (.readPoutByte a) s = .next { s with replies := .byte b :: s.replies, draws := s.draws + 1 }))

/-- R35: the sixteen registers of the map, each at its offset; an access reaches one exactly when it is a whole word on a
word boundary below 0x40, and any other is refused (93 #15, log 9). A write to a read-only register of the map has no
effect (MODEL'S READING, DEDUCED, log 12). -/
def Obligations.OnlyAlignedWordsBelow0x40HoldRegisters : Prop :=
  (accessedReg 0x00 4 = some .encCtrl ∧ accessedReg 0x04 4 = some .encStatus ∧
    accessedReg 0x08 4 = some .encWidth ∧ accessedReg 0x0C 4 = some .encHeight ∧
    accessedReg 0x10 4 = some .encFormat ∧ accessedReg 0x14 4 = some .encCount ∧
    accessedReg 0x18 4 = some .encOutLen ∧ accessedReg 0x1C 4 = some .encPos ∧
    accessedReg 0x20 4 = some .decCtrl ∧ accessedReg 0x24 4 = some .decStatus ∧
    accessedReg 0x28 4 = some .decInLen ∧ accessedReg 0x2C 4 = some .decWidth ∧
    accessedReg 0x30 4 = some .decHeight ∧ accessedReg 0x34 4 = some .decFormat ∧
    accessedReg 0x38 4 = some .decPixCount ∧ accessedReg 0x3C 4 = some .decOffset) ∧
  (∀ (s : State) (v : Word), ∀ offset ∈ [0x04, 0x18, 0x1C, 0x24, 0x2C, 0x30, 0x34, 0x38, 0x3C],
    hostAct (.writeReg offset 4 v) s = .next s) ∧
  ∀ (s : State) (offset size : Nat) (v : Word),
    ((size = 4 ∧ offset % 4 = 0 ∧ offset < 0x40) ↔ accessedReg offset size ≠ none) ∧
    (¬ (size = 4 ∧ offset % 4 = 0 ∧ offset < 0x40) →
      hostAct (.readReg offset size) s = .refused .badRegisterAccess ∧
      hostAct (.writeReg offset size v) s = .refused .badRegisterAccess)

/-- R48, R35, R237, R260: what power-on leaves (`AfterPowerOn`), of `State.reset` and of the state in which a power-on
reset leaves a machine in any state; in the latter nothing but the two engines changes (MODEL'S READING, log 15: the
buffers, with what a cut or failed invocation wrote (log 21), their rooms and the host's queue stay). -/
def Obligations.EveryRegisterReadsZeroAfterReset : Prop :=
  AfterPowerOn State.reset ∧
  ∀ s : State, ∃ t, hostAct .powerOn s = .next t ∧ AfterPowerOn t ∧ t = { s with enc := t.enc, dec := t.dec }

/-- R62, R264 (MODEL'S CHOICE of a fault, log 8): a host write to a buffer of a BUSY engine, by pixel or by byte, or its
replacement, stops as a race. To an engine that is not BUSY a write to any of the four buffers lands at its index and
nowhere else. MODEL'S CHOICES (log 19): a write to OUT or POUT lands at every index, also at or past the buffer's room,
since no host index is checked against it; and a buffer that is placed changes its room and nothing else. -/
def Obligations.HostWritesRaceOnlyWithABusyEngine : Prop :=
  ∀ (s : State) (a : Nat) (b : Byte) (p : Pixel),
    (decBusy s = true →
      hostAct (.writeIn a b) s = .fault .bufferRace ∧ hostAct (.writePout a p) s = .fault .bufferRace ∧
      hostAct (.providePout a) s = .fault .bufferRace) ∧
    (encBusy s = true →
      hostAct (.writePin a p) s = .fault .bufferRace ∧ hostAct (.writePinByte a b) s = .fault .bufferRace ∧
      hostAct (.writeOut a b) s = .fault .bufferRace ∧ hostAct (.provideOut a) s = .fault .bufferRace) ∧
    (decBusy s = false →
      (∃ t, hostAct (.writeIn a b) s = .next t ∧ t = { s with inBuf := t.inBuf } ∧
        ∀ x, readIn t x = if x = a then b else readIn s x) ∧
      (∃ t, hostAct (.writePout a p) s = .next t ∧ t = { s with pout := t.pout } ∧
        ∀ x, readPout t x = if x = a then p else readPout s x) ∧
      hostAct (.providePout a) s = .next { s with poutRoom := a }) ∧
    (encBusy s = false →
      (∃ t, hostAct (.writePin a p) s = .next t ∧ t = { s with pin := t.pin } ∧
        ∀ x, readPin t x = if x = a then p else readPin s x) ∧
      (∃ t, hostAct (.writeOut a b) s = .next t ∧ t = { s with outBuf := t.outBuf } ∧
        ∀ x, readOut t x = if x = a then b else readOut s x) ∧
      hostAct (.provideOut a) s = .next { s with outRoom := a })

/-- R53, decision D4: a byte written to PIN seen as bytes replaces that channel of its pixel and nothing else. -/
def Obligations.ByteWriteToPinReplacesOneChannel : Prop :=
  ∀ (s : State) (a : Nat) (v : Byte), encBusy s = false →
    ∃ t, hostAct (.writePinByte a v) s = .next t ∧ t = { s with pin := t.pin } ∧
      ∀ x, pixelByte (readPin t (x / 4)) (x % 4) = if x = a then v else pixelByte (readPin s (x / 4)) (x % 4)

/-- R205, R233, R241: what a run shows at its end, and that it shows nothing before. An encode at DONE shows the bytes
`OUT[0..OUTLEN)`; a decode at DONE_OK the pixels `POUT[0..PIXCOUNT)`, the width, the height and the tags; a failed decode
its error kind and nothing else, so that two states that failed alike look alike, whatever their buffers, counts and
header registers hold. -/
def Obligations.FailedDecodeShowsOnlyItsError : Prop :=
  (∀ s : State,
    (s.enc.phase = .done → ∃ bytes : List Byte, encObservation s = some bytes ∧ bytes.length = s.enc.outLen ∧
      ∀ k (h : k < bytes.length), bytes[k] = readOut s k) ∧
    (s.enc.phase ≠ .done → encObservation s = none) ∧
    (s.dec.phase = .doneOk → ∃ pixels : List Pixel,
      decObservation s = some (.ok pixels s.dec.width s.dec.height s.dec.channels s.dec.colorspace) ∧
        pixels.length = s.dec.pixCount ∧ ∀ k (h : k < pixels.length), pixels[k] = readPout s k) ∧
    (s.dec.phase = .doneErr → decObservation s = some (.error s.dec.err)) ∧
    (s.dec.phase ≠ .doneOk → s.dec.phase ≠ .doneErr → decObservation s = none)) ∧
  ∀ s t : State, s.dec.phase = .doneErr → t.dec.phase = .doneErr →
    (decObservation s = decObservation t ↔ s.dec.err = t.dec.err)

/-! The whole machine -/

/-- Every step of the machine, by any agent, keeps the invariant. Some of its clauses rest on the model's choices: that
START checks the launch premises of R265 (log 10: `fits`, `narrow`), that the memories are canonical lists (log 6) and
that power-on and placing a buffer leave their contents (logs 15, 19). -/
def Obligations.EveryStepKeepsTheInvariant : Prop :=
  ∀ s t : State, Inv s → step s = .next t → Inv t

/-- The invariant holds at reset. Nothing is claimed of what R48 leaves unspecified; that the memories are canonical there
rests on the model's empty buffers (log 5). -/
def Obligations.ResetMeetsTheInvariant : Prop := Inv State.reset

/-- R265, R7: under the invariant no BUSY engine has written past the buffer the host provided, and in every phase every
counter fits its register, so that every register of the map has a view (`countTooWide` is never raised, log 11). -/
def Obligations.BusyEnginesStayInsideTheirBuffers : Prop :=
  ∀ s : State, Inv s →
    (encBusy s = true → s.enc.outLen ≤ s.outRoom) ∧
    (decBusy s = true → s.dec.pixCount ≤ s.poutRoom) ∧
    s.enc.outLen < 2 ^ 32 ∧ s.enc.pos < 2 ^ 32 ∧ s.dec.offset < 2 ^ 32 ∧ s.dec.errOff < 2 ^ 32 ∧
    s.dec.pixCount < 2 ^ 32 ∧
    ∀ r : HostReg, ∃ w, regView r s = some w

/-- R20, R50, R52, R54, R62: a step of an engine touches nothing of the other engine and neither input, and only appends
to its output: what was written stays, and the count never falls. -/
def Obligations.EnginesShareNothingAndOnlyAppend : Prop :=
  (∀ s : State,
    encTurn s = { s with enc := (encTurn s).enc, outBuf := (encTurn s).outBuf } ∧
    s.enc.outLen ≤ (encTurn s).enc.outLen ∧
    ∀ a, a < s.enc.outLen ∨ (encTurn s).enc.outLen ≤ a → readOut (encTurn s) a = readOut s a) ∧
  (∀ s t : State, decTurn s = .next t →
    t = { s with dec := t.dec, pout := t.pout } ∧
    s.dec.pixCount ≤ t.dec.pixCount ∧
    ∀ i, i < s.dec.pixCount ∨ t.dec.pixCount ≤ i → readPout t i = readPout s i)

/-- R20, R60: steps of the two engines commute, so no order between them can be observed. -/
def Obligations.EngineStepsCommute : Prop :=
  ∀ s t : State, decTurn s = .next t → decTurn (encTurn s) = .next (encTurn t)

/-- R48: what power-on leaves unspecified cannot be observed: two machines that differ at most in the caches, `prev` and
`run` of engines not started yet take alike steps, for ever. So no claim rests on the values log 4 names. -/
def Obligations.UnspecifiedPowerOnStateIsNeverObserved : Prop :=
  ∀ s t : State, alike s t → outcomeAlike (step s) (step t)

/-- R236, R237, R246: an engine that is not BUSY is moved by nothing but an accepted START of its own or a power-on
reset; only its configuration registers can be rewritten, and its results stay. MODEL'S CHOICE (DESIGN CHOICE, log 4):
that a power-on leaves the cache, `prev` and `run` at the zeros of `EncEngine.reset` and `DecEngine.reset`, where R48
leaves them unspecified; the rest of those two states is what R48 gives. -/
def Obligations.OnlyStartOrPowerOnMovesAnIdleEngine : Prop :=
  ∀ s t : State, step s = .next t →
    (decBusy s = false →
      t.dec = { s.dec with inLen := t.dec.inLen } ∨
      (∃ rest, s.pending = .powerOn :: rest ∧ t.dec = DecEngine.reset) ∨
      (∃ v rest, s.pending = .writeReg 0x20 4 v :: rest ∧ v.getLsbD 0 = true ∧ t.dec.phase = .header)) ∧
    (encBusy s = false →
      t.enc = { s.enc with
        width := t.enc.width, height := t.enc.height, channels := t.enc.channels, colorspace := t.enc.colorspace
        count := t.enc.count } ∨
      (∃ rest, s.pending = .powerOn :: rest ∧ t.enc = EncEngine.reset) ∨
      (∃ v rest, s.pending = .writeReg 0x00 4 v :: rest ∧ v.getLsbD 0 = true ∧ t.enc.phase = .header))

/-- Only a host's turn stops the machine: the engines never do (R174, R242, R268). -/
def Obligations.EnginesNeverStopTheMachine : Prop :=
  ∀ s : State, stops (step s) → nextAgent s = .host ∧ s.pending ≠ []

/-- R244, in the model's reading of a platform (DEDUCED, log 18: a list of instances that step alone): when instance `k`
takes a step, its outcome is `step` of its own state and of nothing else, every other instance stays as it was, and the
steps of two instances commute. -/
def Obligations.InstancesShareNothing : Prop :=
  (∀ (p : Platform) (k : Nat) (s : State), p[k]? = some s →
    (∀ t, step s = .next t → ∃ q, platformStep k p = .next q ∧ q[k]? = some t ∧ q.length = p.length ∧
      ∀ j, j ≠ k → q[j]? = p[j]?) ∧
    (∀ f, step s = .fault f → platformStep k p = .fault f) ∧
    (∀ r, step s = .refused r → platformStep k p = .refused r)) ∧
  ∀ (p q r : Platform) (j k : Nat), j ≠ k → platformStep k p = .next q → platformStep j p = .next r →
    ∃ u, platformStep j q = .next u ∧ platformStep k r = .next u

/-- R203, R241: every decode that is started reaches DONE_OK or DONE_ERR in at most N - 22 opcode steps and three
others (log 3), having appended exactly the pixels that `producedPixels` counts at START, at most 62 × (N - 22). -/
def Obligations.EveryDecodeEnds : Prop :=
  ∀ s : State, ∃ k t, k ≤ (inputLength s - 22) + 3 ∧ decRun k (decStart s) = .next t ∧
    (t.dec.phase = .doneOk ∨ t.dec.phase = .doneErr) ∧
    t.dec.pixCount = producedPixels s ∧ t.dec.pixCount ≤ 62 * (inputLength s - 22)

/-- R207: encoder and decoder evolve the cache and the previous pixel in lockstep. Whenever a decode of an encoded frame
is in STREAM with k pixels appended, its cache and `prev` are those of the encoder after its k-th pixel step. -/
def Obligations.CachesEvolveInLockstep : Prop :=
  ∀ s d : State,
    inputLength d = (encRun (pixelCount s + 2) (encStart s)).enc.outLen →
    (∀ a, a < inputLength d → readIn d a = readOut (encRun (pixelCount s + 2) (encStart s)) a) →
    ∀ (j : Nat) (u : State), decRun j (decStart d) = .next u → u.dec.phase = .stream →
      u.dec.pixCount ≤ pixelCount s ∧
      u.dec.cache = (encRun (u.dec.pixCount + 1) (encStart s)).enc.cache ∧
      u.dec.prev = (encRun (u.dec.pixCount + 1) (encStart s)).enc.prev

/-- R208, the round trip: a decode of the frame an encode of any pixel sequence wrote reaches DONE_OK with exactly those
pixels, their number, and the width, height and tags of the encode. -/
def Obligations.DecodeOfAnEncodedFrameGivesThePixelsBack : Prop :=
  ∀ s d : State,
    inputLength d = (encRun (pixelCount s + 2) (encStart s)).enc.outLen →
    (∀ a, a < inputLength d → readIn d a = readOut (encRun (pixelCount s + 2) (encStart s)) a) →
    ∃ (k : Nat) (u : State), decRun k (decStart d) = .next u ∧ u.dec.phase = .doneOk ∧
      u.dec.pixCount = pixelCount s ∧ (∀ i, i < pixelCount s → readPout u i = readPin s i) ∧
      u.dec.width = s.enc.width ∧ u.dec.height = s.enc.height ∧
      u.dec.channels = s.enc.channels ∧ u.dec.colorspace = s.enc.colorspace
end

