-- ==== Sys2Proof/Laws/Decode.lean ====
section
/-! SUPPORT. What the byte-level decoder and encoder do, kind by kind. -/
namespace Sys2Proof

/-- The length of an opcode, by its kind (R70, R79). -/
def OpKind.len : OpKind → Nat
  | .index => 1
  | .diff => 1
  | .luma => 2
  | .run => 1
  | .rgb => 4
  | .rgba => 5

/-- The classifier is total (R78). -/
theorem opKind_ne_none (b0 : Byte) : opKind b0 ≠ none := by revert b0; decide

theorem opLen_of_opKind {b0 : Byte} {k : OpKind} : opKind b0 = some k → opLen b0 = k.len := by
  revert b0; cases k <;> decide

theorem opLen_pos (b0 : Byte) : 1 ≤ opLen b0 := by revert b0; decide

theorem opLen_le_longest (b0 : Byte) : opLen b0 ≤ longestOpcode := by revert b0; decide

theorem opPixels_pos (b0 : Byte) : 1 ≤ opPixels b0 := by revert b0; decide

theorem opPixels_le (b0 : Byte) : opPixels b0 ≤ 62 := by revert b0; decide

theorem eq_of_opKind_rgb {b0 : Byte} : opKind b0 = some .rgb → b0 = 0xFE#8 := by revert b0; decide

theorem eq_of_opKind_rgba {b0 : Byte} : opKind b0 = some .rgba → b0 = 0xFF#8 := by revert b0; decide

theorem encode_decodeIndex {b0 : Byte} :
    opKind b0 = some .index → (decodeIndex b0).wellFormed = true ∧ encode (decodeIndex b0) = [b0] := by
  revert b0; decide

theorem encode_decodeDiff {b0 : Byte} :
    opKind b0 = some .diff → (decodeDiff b0).wellFormed = true ∧ encode (decodeDiff b0) = [b0] := by
  revert b0; decide

theorem encode_decodeRun {b0 : Byte} :
    opKind b0 = some .run → (decodeRun b0).wellFormed = true ∧ encode (decodeRun b0) = [b0] := by
  revert b0; decide

/-- LUMA's first byte: the green field, read and written. -/
theorem luma_green {b0 : Byte} :
    opKind b0 = some .luma →
      inRange (-32) 31 (unbias b0 0 6 32) = true ∧ (0x80#8 ||| biased (unbias b0 0 6 32) 32) = b0 := by
  revert b0; decide

/-- LUMA's second byte: both cross fields, read and written. -/
theorem luma_cross (b1 : Byte) :
    inRange (-8) 7 (unbias b1 4 4 8) = true ∧ inRange (-8) 7 (unbias b1 0 4 8) = true ∧
      ((biased (unbias b1 4 4 8) 8 <<< 4) ||| biased (unbias b1 0 4 8) 8) = b1 := by
  revert b1; decide

theorem encode_decodeLuma {b0 : Byte} (b1 : Byte) (h : opKind b0 = some .luma) :
    (decodeLuma b0 b1).wellFormed = true ∧ encode (decodeLuma b0 b1) = [b0, b1] := by
  obtain ⟨g, eg⟩ := luma_green h
  obtain ⟨r, b, ec⟩ := luma_cross b1
  simp [decodeLuma, Instr.wellFormed, encode, g, eg, r, b, ec]

/-- A decode consumes at least the bytes its first byte asks for. -/
theorem opLen_le_of_decode {b0 : Byte} {t rest : List Byte} {i : Instr} (h : decode (b0 :: t) = .ok (i, rest)) :
    opLen b0 ≤ t.length + 1 := by
  simp only [decode] at h
  split at h
  · cases h
  · rw [opLen_of_opKind ‹_›]; simp [OpKind.len]
  · rw [opLen_of_opKind ‹_›]; simp [OpKind.len]
  · rw [opLen_of_opKind ‹_›]; simp [OpKind.len]
  · rw [opLen_of_opKind ‹_›]; simp [OpKind.len]
  · rw [opLen_of_opKind ‹_›]; simp [OpKind.len]
  · rw [opLen_of_opKind ‹_›]; simp [OpKind.len]
  · cases h

theorem wordBytes_length (nbits w n k : Nat) : (wordBytes nbits w n k).length = n := by
  induction n generalizing k with
  | zero => rfl
  | succ n ih => simp [wordBytes, ih]

end Sys2Proof
end

