-- ==== Sys2Proof/Laws/Memory.lean ====
section
/-! SUPPORT. What the memory operations do: read after write, the canonical form, and that it makes equal contents equal
lists. -/
namespace Sys2Proof.Machine

variable {α : Type}

theorem Memory.read_nil (a : Nat) : Memory.read ([] : Memory α) a = none := rfl

theorem Memory.read_write (m : Memory α) (a : Nat) (v : α) (x : Nat) :
    Memory.read (Memory.write m a v) x = if x = a then some v else Memory.read m x := by
  induction m with
  | nil => simp [Memory.write, Memory.read, eq_comm]
  | cons e t ih =>
    obtain ⟨b, w⟩ := e
    by_cases hx : x = a
    · subst hx
      rcases Nat.lt_trichotomy x b with h | h | h
      · simp [Memory.write, Memory.read, h]
      · simp [Memory.write, Memory.read, h]
      · have h1 : ¬ x < b := by omega
        have h2 : x ≠ b := by omega
        have h3 : b ≠ x := by omega
        simp [Memory.write, Memory.read, h1, h2, h3, ih]
    · have hx' : a ≠ x := fun h => hx h.symm
      rcases Nat.lt_trichotomy a b with h | h | h
      · simp [Memory.write, Memory.read, h, hx, hx']
      · subst h; simp [Memory.write, Memory.read, hx, hx']
      · have h1 : ¬ a < b := by omega
        have h2 : a ≠ b := by omega
        simp [Memory.write, Memory.read, h1, h2, hx, ih]

theorem Memory.read_write_same (m : Memory α) (a : Nat) (v : α) : Memory.read (Memory.write m a v) a = some v := by
  simp [Memory.read_write]

theorem Memory.read_write_other (m : Memory α) {a x : Nat} (v : α) (h : x ≠ a) :
    Memory.read (Memory.write m a v) x = Memory.read m x := by
  simp [Memory.read_write, h]

/-- A sequence write, read back: the element inside the written range, the old content outside it. -/
theorem Memory.read_writeAll (vs : List α) (m : Memory α) (a x : Nat) :
    Memory.read (Memory.writeAll m a vs) x =
      if a ≤ x ∧ x < a + vs.length then vs[x - a]? else Memory.read m x := by
  induction vs generalizing m a with
  | nil => rw [List.length_nil, if_neg (by omega)]; rfl
  | cons v vs ih =>
    simp only [Memory.writeAll, ih, Memory.read_write, List.length_cons]
    by_cases h0 : x = a
    · subst h0; rw [if_neg (by omega), if_pos rfl, if_pos (by omega)]; simp
    · by_cases h1 : a + 1 ≤ x ∧ x < a + 1 + vs.length
      · have : x - a = (x - (a + 1)) + 1 := by omega
        rw [if_pos h1, if_pos (by omega), this, List.getElem?_cons_succ]
      · rw [if_neg h1, if_neg h0, if_neg (by omega)]

theorem Memory.read_writeAll_outside (vs : List α) (m : Memory α) {a x : Nat} (h : x < a ∨ a + vs.length ≤ x) :
    Memory.read (Memory.writeAll m a vs) x = Memory.read m x := by
  rw [Memory.read_writeAll, if_neg (by omega)]

theorem Memory.read_writeAll_inside (vs : List α) (m : Memory α) (a : Nat) {k : Nat} (h : k < vs.length) :
    Memory.read (Memory.writeAll m a vs) (a + k) = some vs[k] := by
  rw [Memory.read_writeAll, if_pos (by omega)]; simp [h]

/-- Two sequence writes one after the other are one write of the joined sequence. -/
theorem Memory.writeAll_append (us vs : List α) (m : Memory α) (a : Nat) :
    Memory.writeAll m a (us ++ vs) = Memory.writeAll (Memory.writeAll m a us) (a + us.length) vs := by
  induction us generalizing m a with
  | nil => simp [Memory.writeAll]
  | cons u us ih => simp [Memory.writeAll, ih, Nat.add_assoc, Nat.add_comm 1]

theorem Memory.wf_tail {e : Nat × α} {t : Memory α} (h : Memory.wf (e :: t) = true) : Memory.wf t = true := by
  cases t with
  | nil => rfl
  | cons f t => obtain ⟨a, v⟩ := e; obtain ⟨b, w⟩ := f; simp_all [Memory.wf]

theorem Memory.write_wf {m : Memory α} (a : Nat) (v : α) (h : Memory.wf m = true) :
    Memory.wf (Memory.write m a v) = true := by
  induction m with
  | nil => rfl
  | cons e t ih =>
    obtain ⟨b, w⟩ := e
    simp only [Memory.write]
    split
    · simp_all [Memory.wf]
    · split
      · subst_vars; cases t with
        | nil => rfl
        | cons f t => simp_all [Memory.wf]
      · have iht := ih (Memory.wf_tail h)
        have hba : b < a := by omega
        cases t with
        | nil => simp [Memory.write, Memory.wf, hba]
        | cons f t =>
          obtain ⟨c, u⟩ := f
          simp only [Memory.write] at iht ⊢
          split at iht
          · simp_all [Memory.wf]
          · split at iht
            · simp_all [Memory.wf]
            · rename_i hac hne
              rw [if_neg hac, if_neg hne]; simp_all [Memory.wf]

theorem Memory.writeAll_wf (vs : List α) {m : Memory α} (a : Nat) (h : Memory.wf m = true) :
    Memory.wf (Memory.writeAll m a vs) = true := by
  induction vs generalizing m a with
  | nil => exact h
  | cons v vs ih => exact ih _ (Memory.write_wf a v h)

theorem Memory.read_below_head {t : Memory α} {b : Nat} {w : α} (h : Memory.wf ((b, w) :: t) = true) {x : Nat}
    (hx : x ≤ b) : Memory.read t x = none := by
  induction t generalizing b w with
  | nil => rfl
  | cons f t ih =>
    obtain ⟨c, u⟩ := f
    have hc : b < c := by simp_all [Memory.wf]
    have ht : Memory.wf ((c, u) :: t) = true := Memory.wf_tail h
    simp only [Memory.read]
    rw [if_neg (by omega), ih ht (by omega)]

/-- The form is canonical: the same contents are the same list. -/
theorem Memory.eq_of_read_eq {m n : Memory α} (hm : Memory.wf m = true) (hn : Memory.wf n = true)
    (h : ∀ a, Memory.read m a = Memory.read n a) : m = n := by
  induction m generalizing n with
  | nil =>
    cases n with
    | nil => rfl
    | cons f n => obtain ⟨b, w⟩ := f; have := h b; simp [Memory.read] at this
  | cons e m ih =>
    obtain ⟨a, v⟩ := e
    cases n with
    | nil => have := h a; simp [Memory.read] at this
    | cons f n =>
      obtain ⟨b, w⟩ := f
      have hab : a = b := by
        rcases Nat.lt_trichotomy a b with hlt | heq | hgt
        · have := h a
          simp [Memory.read, Nat.ne_of_gt hlt, Memory.read_below_head hn (Nat.le_of_lt hlt)] at this
        · exact heq
        · have := h b
          simp [Memory.read, Nat.ne_of_gt hgt, Memory.read_below_head hm (Nat.le_of_lt hgt)] at this
      subst hab
      have hvw : v = w := by have := h a; simpa [Memory.read] using this
      subst hvw
      refine congrArg _ (ih (Memory.wf_tail hm) (Memory.wf_tail hn) fun x => ?_)
      by_cases hx : a = x
      · subst hx; rw [Memory.read_below_head hm (Nat.le_refl _), Memory.read_below_head hn (Nat.le_refl _)]
      · have := h x; simpa [Memory.read, hx] using this

theorem reset_memories_wf :
    Memory.wf State.reset.inBuf = true ∧ Memory.wf State.reset.outBuf = true ∧
      Memory.wf State.reset.pin = true ∧ Memory.wf State.reset.pout = true := by decide

end Sys2Proof.Machine
end

