-- ==== Sys2Proof/Laws/State.lean ====
section
/-! SUPPORT. One lemma per field of State per named update, each true by unfolding, so that no proof unfolds one. -/
namespace Sys2Proof.Machine

@[simp] theorem emit_enc (v : List Byte) (s : State) :
    (emit v s).enc = { s.enc with outLen := s.enc.outLen + v.length } := rfl
@[simp] theorem emit_dec (v : List Byte) (s : State) : (emit v s).dec = s.dec := rfl
@[simp] theorem emit_inBuf (v : List Byte) (s : State) : (emit v s).inBuf = s.inBuf := rfl
@[simp] theorem emit_outBuf (v : List Byte) (s : State) :
    (emit v s).outBuf = Memory.writeAll s.outBuf s.enc.outLen v := rfl
@[simp] theorem emit_pin (v : List Byte) (s : State) : (emit v s).pin = s.pin := rfl
@[simp] theorem emit_pout (v : List Byte) (s : State) : (emit v s).pout = s.pout := rfl
@[simp] theorem emit_outRoom (v : List Byte) (s : State) : (emit v s).outRoom = s.outRoom := rfl
@[simp] theorem emit_poutRoom (v : List Byte) (s : State) : (emit v s).poutRoom = s.poutRoom := rfl
@[simp] theorem emit_pending (v : List Byte) (s : State) : (emit v s).pending = s.pending := rfl
@[simp] theorem emit_replies (v : List Byte) (s : State) : (emit v s).replies = s.replies := rfl
@[simp] theorem emit_sched (v : List Byte) (s : State) : (emit v s).sched = s.sched := rfl
@[simp] theorem emit_draws (v : List Byte) (s : State) : (emit v s).draws = s.draws := rfl

@[simp] theorem put_enc (p : Pixel) (k : Nat) (s : State) : (put p k s).enc = s.enc := rfl
@[simp] theorem put_dec (p : Pixel) (k : Nat) (s : State) :
    (put p k s).dec = { s.dec with pixCount := s.dec.pixCount + k } := rfl
@[simp] theorem put_inBuf (p : Pixel) (k : Nat) (s : State) : (put p k s).inBuf = s.inBuf := rfl
@[simp] theorem put_outBuf (p : Pixel) (k : Nat) (s : State) : (put p k s).outBuf = s.outBuf := rfl
@[simp] theorem put_pin (p : Pixel) (k : Nat) (s : State) : (put p k s).pin = s.pin := rfl
@[simp] theorem put_pout (p : Pixel) (k : Nat) (s : State) :
    (put p k s).pout = Memory.writeAll s.pout s.dec.pixCount (List.replicate k p) := rfl
@[simp] theorem put_outRoom (p : Pixel) (k : Nat) (s : State) : (put p k s).outRoom = s.outRoom := rfl
@[simp] theorem put_poutRoom (p : Pixel) (k : Nat) (s : State) : (put p k s).poutRoom = s.poutRoom := rfl
@[simp] theorem put_pending (p : Pixel) (k : Nat) (s : State) : (put p k s).pending = s.pending := rfl
@[simp] theorem put_replies (p : Pixel) (k : Nat) (s : State) : (put p k s).replies = s.replies := rfl
@[simp] theorem put_sched (p : Pixel) (k : Nat) (s : State) : (put p k s).sched = s.sched := rfl
@[simp] theorem put_draws (p : Pixel) (k : Nat) (s : State) : (put p k s).draws = s.draws := rfl

@[simp] theorem decStore_enc (p : Pixel) (s : State) : (decStore p s).enc = s.enc := rfl
@[simp] theorem decStore_dec (p : Pixel) (s : State) :
    (decStore p s).dec = { s.dec with cache := cacheStore s.dec.cache p } := rfl
@[simp] theorem decStore_inBuf (p : Pixel) (s : State) : (decStore p s).inBuf = s.inBuf := rfl
@[simp] theorem decStore_outBuf (p : Pixel) (s : State) : (decStore p s).outBuf = s.outBuf := rfl
@[simp] theorem decStore_pin (p : Pixel) (s : State) : (decStore p s).pin = s.pin := rfl
@[simp] theorem decStore_pout (p : Pixel) (s : State) : (decStore p s).pout = s.pout := rfl
@[simp] theorem decStore_outRoom (p : Pixel) (s : State) : (decStore p s).outRoom = s.outRoom := rfl
@[simp] theorem decStore_poutRoom (p : Pixel) (s : State) : (decStore p s).poutRoom = s.poutRoom := rfl
@[simp] theorem decStore_pending (p : Pixel) (s : State) : (decStore p s).pending = s.pending := rfl
@[simp] theorem decStore_replies (p : Pixel) (s : State) : (decStore p s).replies = s.replies := rfl
@[simp] theorem decStore_sched (p : Pixel) (s : State) : (decStore p s).sched = s.sched := rfl
@[simp] theorem decStore_draws (p : Pixel) (s : State) : (decStore p s).draws = s.draws := rfl

@[simp] theorem completeOpcode_enc (p : Pixel) (n len : Nat) (s : State) :
    (completeOpcode p n len s).enc = s.enc := rfl
@[simp] theorem completeOpcode_dec (p : Pixel) (n len : Nat) (s : State) :
    (completeOpcode p n len s).dec = { s.dec with prev := p, offset := s.dec.offset + len, pixCount := s.dec.pixCount + n } := rfl
@[simp] theorem completeOpcode_inBuf (p : Pixel) (n len : Nat) (s : State) :
    (completeOpcode p n len s).inBuf = s.inBuf := rfl
@[simp] theorem completeOpcode_outBuf (p : Pixel) (n len : Nat) (s : State) :
    (completeOpcode p n len s).outBuf = s.outBuf := rfl
@[simp] theorem completeOpcode_pin (p : Pixel) (n len : Nat) (s : State) :
    (completeOpcode p n len s).pin = s.pin := rfl
@[simp] theorem completeOpcode_pout (p : Pixel) (n len : Nat) (s : State) :
    (completeOpcode p n len s).pout = Memory.writeAll s.pout s.dec.pixCount (List.replicate n p) := rfl
@[simp] theorem completeOpcode_outRoom (p : Pixel) (n len : Nat) (s : State) :
    (completeOpcode p n len s).outRoom = s.outRoom := rfl
@[simp] theorem completeOpcode_poutRoom (p : Pixel) (n len : Nat) (s : State) :
    (completeOpcode p n len s).poutRoom = s.poutRoom := rfl
@[simp] theorem completeOpcode_pending (p : Pixel) (n len : Nat) (s : State) :
    (completeOpcode p n len s).pending = s.pending := rfl
@[simp] theorem completeOpcode_replies (p : Pixel) (n len : Nat) (s : State) :
    (completeOpcode p n len s).replies = s.replies := rfl
@[simp] theorem completeOpcode_sched (p : Pixel) (n len : Nat) (s : State) :
    (completeOpcode p n len s).sched = s.sched := rfl
@[simp] theorem completeOpcode_draws (p : Pixel) (n len : Nat) (s : State) :
    (completeOpcode p n len s).draws = s.draws := rfl

@[simp] theorem raiseError_enc (e : DecErr) (o : Nat) (s : State) : (raiseError e o s).enc = s.enc := rfl
@[simp] theorem raiseError_dec (e : DecErr) (o : Nat) (s : State) :
    (raiseError e o s).dec = { s.dec with err := e, errOff := o, phase := .doneErr } := rfl
@[simp] theorem raiseError_inBuf (e : DecErr) (o : Nat) (s : State) : (raiseError e o s).inBuf = s.inBuf := rfl
@[simp] theorem raiseError_outBuf (e : DecErr) (o : Nat) (s : State) : (raiseError e o s).outBuf = s.outBuf := rfl
@[simp] theorem raiseError_pin (e : DecErr) (o : Nat) (s : State) : (raiseError e o s).pin = s.pin := rfl
@[simp] theorem raiseError_pout (e : DecErr) (o : Nat) (s : State) : (raiseError e o s).pout = s.pout := rfl
@[simp] theorem raiseError_outRoom (e : DecErr) (o : Nat) (s : State) : (raiseError e o s).outRoom = s.outRoom := rfl
@[simp] theorem raiseError_poutRoom (e : DecErr) (o : Nat) (s : State) :
    (raiseError e o s).poutRoom = s.poutRoom := rfl
@[simp] theorem raiseError_pending (e : DecErr) (o : Nat) (s : State) : (raiseError e o s).pending = s.pending := rfl
@[simp] theorem raiseError_replies (e : DecErr) (o : Nat) (s : State) : (raiseError e o s).replies = s.replies := rfl
@[simp] theorem raiseError_sched (e : DecErr) (o : Nat) (s : State) : (raiseError e o s).sched = s.sched := rfl
@[simp] theorem raiseError_draws (e : DecErr) (o : Nat) (s : State) : (raiseError e o s).draws = s.draws := rfl

@[simp] theorem encStart_enc (s : State) :
    (encStart s).enc = { s.enc with cache := seedCache, prev := opaqueBlack, run := 0, pos := 0, outLen := 0, phase := .header } := rfl
@[simp] theorem encStart_dec (s : State) : (encStart s).dec = s.dec := rfl
@[simp] theorem encStart_inBuf (s : State) : (encStart s).inBuf = s.inBuf := rfl
@[simp] theorem encStart_outBuf (s : State) : (encStart s).outBuf = s.outBuf := rfl
@[simp] theorem encStart_pin (s : State) : (encStart s).pin = s.pin := rfl
@[simp] theorem encStart_pout (s : State) : (encStart s).pout = s.pout := rfl
@[simp] theorem encStart_outRoom (s : State) : (encStart s).outRoom = s.outRoom := rfl
@[simp] theorem encStart_poutRoom (s : State) : (encStart s).poutRoom = s.poutRoom := rfl
@[simp] theorem encStart_pending (s : State) : (encStart s).pending = s.pending := rfl
@[simp] theorem encStart_replies (s : State) : (encStart s).replies = s.replies := rfl
@[simp] theorem encStart_sched (s : State) : (encStart s).sched = s.sched := rfl
@[simp] theorem encStart_draws (s : State) : (encStart s).draws = s.draws := rfl

@[simp] theorem decStart_enc (s : State) : (decStart s).enc = s.enc := rfl
@[simp] theorem decStart_dec (s : State) :
    (decStart s).dec = { s.dec with cache := seedCache, prev := opaqueBlack, offset := 0, pixCount := 0, width := 0#32, height := 0#32, channels := .rgb, colorspace := .srgb, err := .none, errOff := 0, phase := .header } := rfl
@[simp] theorem decStart_inBuf (s : State) : (decStart s).inBuf = s.inBuf := rfl
@[simp] theorem decStart_outBuf (s : State) : (decStart s).outBuf = s.outBuf := rfl
@[simp] theorem decStart_pin (s : State) : (decStart s).pin = s.pin := rfl
@[simp] theorem decStart_pout (s : State) : (decStart s).pout = s.pout := rfl
@[simp] theorem decStart_outRoom (s : State) : (decStart s).outRoom = s.outRoom := rfl
@[simp] theorem decStart_poutRoom (s : State) : (decStart s).poutRoom = s.poutRoom := rfl
@[simp] theorem decStart_pending (s : State) : (decStart s).pending = s.pending := rfl
@[simp] theorem decStart_replies (s : State) : (decStart s).replies = s.replies := rfl
@[simp] theorem decStart_sched (s : State) : (decStart s).sched = s.sched := rfl
@[simp] theorem decStart_draws (s : State) : (decStart s).draws = s.draws := rfl

@[simp] theorem replyWith_enc (r : Reply) (s : State) : (replyWith r s).enc = s.enc := rfl
@[simp] theorem replyWith_dec (r : Reply) (s : State) : (replyWith r s).dec = s.dec := rfl
@[simp] theorem replyWith_inBuf (r : Reply) (s : State) : (replyWith r s).inBuf = s.inBuf := rfl
@[simp] theorem replyWith_outBuf (r : Reply) (s : State) : (replyWith r s).outBuf = s.outBuf := rfl
@[simp] theorem replyWith_pin (r : Reply) (s : State) : (replyWith r s).pin = s.pin := rfl
@[simp] theorem replyWith_pout (r : Reply) (s : State) : (replyWith r s).pout = s.pout := rfl
@[simp] theorem replyWith_outRoom (r : Reply) (s : State) : (replyWith r s).outRoom = s.outRoom := rfl
@[simp] theorem replyWith_poutRoom (r : Reply) (s : State) : (replyWith r s).poutRoom = s.poutRoom := rfl
@[simp] theorem replyWith_pending (r : Reply) (s : State) : (replyWith r s).pending = s.pending := rfl
@[simp] theorem replyWith_replies (r : Reply) (s : State) : (replyWith r s).replies = r :: s.replies := rfl
@[simp] theorem replyWith_sched (r : Reply) (s : State) : (replyWith r s).sched = s.sched := rfl
@[simp] theorem replyWith_draws (r : Reply) (s : State) : (replyWith r s).draws = s.draws := rfl

@[simp] theorem drawn_enc (s : State) : (drawn s).enc = s.enc := rfl
@[simp] theorem drawn_dec (s : State) : (drawn s).dec = s.dec := rfl
@[simp] theorem drawn_inBuf (s : State) : (drawn s).inBuf = s.inBuf := rfl
@[simp] theorem drawn_outBuf (s : State) : (drawn s).outBuf = s.outBuf := rfl
@[simp] theorem drawn_pin (s : State) : (drawn s).pin = s.pin := rfl
@[simp] theorem drawn_pout (s : State) : (drawn s).pout = s.pout := rfl
@[simp] theorem drawn_outRoom (s : State) : (drawn s).outRoom = s.outRoom := rfl
@[simp] theorem drawn_poutRoom (s : State) : (drawn s).poutRoom = s.poutRoom := rfl
@[simp] theorem drawn_pending (s : State) : (drawn s).pending = s.pending := rfl
@[simp] theorem drawn_replies (s : State) : (drawn s).replies = s.replies := rfl
@[simp] theorem drawn_sched (s : State) : (drawn s).sched = s.sched := rfl
@[simp] theorem drawn_draws (s : State) : (drawn s).draws = s.draws + 1 := rfl

@[simp] theorem takeTurn_enc (s : State) : (takeTurn s).enc = s.enc := rfl
@[simp] theorem takeTurn_dec (s : State) : (takeTurn s).dec = s.dec := rfl
@[simp] theorem takeTurn_inBuf (s : State) : (takeTurn s).inBuf = s.inBuf := rfl
@[simp] theorem takeTurn_outBuf (s : State) : (takeTurn s).outBuf = s.outBuf := rfl
@[simp] theorem takeTurn_pin (s : State) : (takeTurn s).pin = s.pin := rfl
@[simp] theorem takeTurn_pout (s : State) : (takeTurn s).pout = s.pout := rfl
@[simp] theorem takeTurn_outRoom (s : State) : (takeTurn s).outRoom = s.outRoom := rfl
@[simp] theorem takeTurn_poutRoom (s : State) : (takeTurn s).poutRoom = s.poutRoom := rfl
@[simp] theorem takeTurn_pending (s : State) : (takeTurn s).pending = s.pending := rfl
@[simp] theorem takeTurn_replies (s : State) : (takeTurn s).replies = s.replies := rfl
@[simp] theorem takeTurn_sched (s : State) : (takeTurn s).sched = s.sched.tail := rfl
@[simp] theorem takeTurn_draws (s : State) : (takeTurn s).draws = s.draws := rfl

@[simp] theorem powerOnReset_enc (s : State) : (powerOnReset s).enc = EncEngine.reset := rfl
@[simp] theorem powerOnReset_dec (s : State) : (powerOnReset s).dec = DecEngine.reset := rfl
@[simp] theorem powerOnReset_inBuf (s : State) : (powerOnReset s).inBuf = s.inBuf := rfl
@[simp] theorem powerOnReset_outBuf (s : State) : (powerOnReset s).outBuf = s.outBuf := rfl
@[simp] theorem powerOnReset_pin (s : State) : (powerOnReset s).pin = s.pin := rfl
@[simp] theorem powerOnReset_pout (s : State) : (powerOnReset s).pout = s.pout := rfl
@[simp] theorem powerOnReset_outRoom (s : State) : (powerOnReset s).outRoom = s.outRoom := rfl
@[simp] theorem powerOnReset_poutRoom (s : State) : (powerOnReset s).poutRoom = s.poutRoom := rfl
@[simp] theorem powerOnReset_pending (s : State) : (powerOnReset s).pending = s.pending := rfl
@[simp] theorem powerOnReset_replies (s : State) : (powerOnReset s).replies = s.replies := rfl
@[simp] theorem powerOnReset_sched (s : State) : (powerOnReset s).sched = s.sched := rfl
@[simp] theorem powerOnReset_draws (s : State) : (powerOnReset s).draws = s.draws := rfl

end Sys2Proof.Machine
end

