-- ==== Sys2Proof/Laws/Ops.lean ====
section
/-! SUPPORT. One lemma per shared operation: everything it does to what can be read. -/
namespace Sys2Proof.Machine

/-- A cache slot after a slot write. -/
theorem cacheRead_cacheWrite (c : Cache) (i j : Fin 64) (p : Pixel) :
    cacheRead (cacheWrite c i p) j = if j = i then p else cacheRead c j := by
  simp only [cacheRead, cacheWrite, Vector.getElem_set]
  by_cases h : j = i
  · simp [h]
  · have : (i : Nat) ≠ j := fun e => h (Fin.ext e.symm)
    simp [h, this]

/-- A cache slot after a pixel is stored at its hash. -/
theorem cacheRead_cacheStore (c : Cache) (p : Pixel) (j : Fin 64) :
    cacheRead (cacheStore c p) j = if j = pixelHash p then p else cacheRead c j :=
  cacheRead_cacheWrite c (pixelHash p) j p

theorem cacheRead_seedCache (j : Fin 64) : cacheRead seedCache j = transparentBlack := by
  simp [cacheRead, seedCache]

/-- Storing the pixel a slot of its hash already holds changes nothing: why an INDEX of a canonical stream leaves the
cache as it is (R193). -/
theorem cacheStore_self (c : Cache) (p : Pixel) (h : cacheRead c (pixelHash p) = p) : cacheStore c p = c := by
  apply Vector.ext
  intro j hj
  have e := cacheRead_cacheStore c p ⟨j, hj⟩
  simp only [cacheRead] at e h
  rw [e]
  split
  · rename_i hjp; rw [← hjp] at h; exact h.symm
  · rfl

/-- `OUT` after `Emit`: the emitted bytes at the old OUTLEN, everything else as before. -/
theorem readOut_emit (v : List Byte) (s : State) (a : Nat) :
    readOut (emit v s) a =
      if h : s.enc.outLen ≤ a ∧ a < s.enc.outLen + v.length then v[a - s.enc.outLen]'(by omega) else readOut s a := by
  unfold readOut
  rw [emit_outBuf, Memory.read_writeAll]
  split
  · rename_i h
    rw [List.getElem?_eq_getElem (by omega)]; rfl
  · rfl

/-- `POUT` after `Put`: `k` copies at the old PIXCOUNT, everything else as before. -/
theorem readPout_put (p : Pixel) (k : Nat) (s : State) (i : Nat) :
    readPout (put p k s) i =
      if s.dec.pixCount ≤ i ∧ i < s.dec.pixCount + k then p else readPout s i := by
  unfold readPout
  rw [put_pout, Memory.read_writeAll, List.length_replicate]
  split
  · rw [List.getElem?_replicate, if_pos (by omega)]; rfl
  · rfl

theorem readPout_completeOpcode (p : Pixel) (n len : Nat) (s : State) (i : Nat) :
    readPout (completeOpcode p n len s) i =
      if s.dec.pixCount ≤ i ∧ i < s.dec.pixCount + n then p else readPout s i :=
  readPout_put p n s i

/-- Two emissions are one emission of the joined bytes. -/
theorem emit_emit (u v : List Byte) (s : State) : emit v (emit u s) = emit (u ++ v) s := by
  simp [emit, Memory.writeAll_append, Nat.add_assoc]

theorem emit_nil (s : State) : emit [] s = s := rfl

theorem fetchBytes_length (s : State) (a n : Nat) : (fetchBytes s a n).length = n := by
  induction n generalizing a with
  | zero => rfl
  | succ n ih => simp [fetchBytes, ih]

theorem fetchBytes_getElem? (s : State) (a n k : Nat) (h : k < n) : (fetchBytes s a n)[k]? = some (readIn s (a + k)) := by
  induction n generalizing a k with
  | zero => omega
  | succ n ih =>
    cases k with
    | zero => rfl
    | succ k => simp only [fetchBytes, List.getElem?_cons_succ]; rw [ih _ _ (by omega)]; congr 2; omega

/-- The bytes fetched from IN are the bytes IN holds there. -/
theorem fetchBytes_eq (s : State) (a : Nat) (l : List Byte)
    (h : ∀ k (hk : k < l.length), readIn s (a + k) = l[k]) : fetchBytes s a l.length = l := by
  apply List.ext_getElem?
  intro k
  by_cases hk : k < l.length
  · rw [fetchBytes_getElem? _ _ _ _ hk, h k hk, List.getElem?_eq_getElem hk]
  · rw [List.getElem?_eq_none (by rw [fetchBytes_length]; omega), List.getElem?_eq_none (by omega)]

theorem pixelEq_iff (p q : Pixel) : pixelEq p q = true ↔ p = q := by
  cases p; cases q; simp [pixelEq, and_assoc]

theorem inRange_iff (lo hi x : Int) : inRange lo hi x = true ↔ lo ≤ x ∧ x ≤ hi := by simp [inRange]

end Sys2Proof.Machine
end

