-- ==== Sys2Proof/Laws/Decoder.lean ====
section
/-! SUPPORT. What the decode engine can do in one step. -/
namespace Sys2Proof.Machine

/-- A cache that is seeded, and one that a pixel is stored in, are direct-mapped (R21). -/
theorem directMapped_seedCache : directMapped seedCache := fun i => .inl (cacheRead_seedCache i)

theorem directMapped_cacheStore {c : Cache} (p : Pixel) (h : directMapped c) : directMapped (cacheStore c p) := by
  intro i
  rw [cacheRead_cacheStore]
  split
  · exact .inr (Eq.symm ‹_›)
  · exact h i

/-- Every opcode is one `Put` after an update of the engine that keeps PIXCOUNT; and both are fixed by the engine's
registers. -/
theorem exec_eq_put (i : Instr) (s : State) :
    ∃ (d : DecEngine) (p : Pixel) (n : Nat), d.pixCount = s.dec.pixCount ∧
      ∀ t : State, t.dec = s.dec → exec i t = .next (put p n { t with dec := d }) := by
  have give : ∀ (p : Pixel) (len : Nat), (∀ t : State, t.dec = s.dec →
      exec i t = .next (completeOpcode p 1 len (decStore p t))) →
      ∃ (d : DecEngine) (p : Pixel) (n : Nat), d.pixCount = s.dec.pixCount ∧
        ∀ t : State, t.dec = s.dec → exec i t = .next (put p n { t with dec := d }) := fun p len h =>
    ⟨{ s.dec with cache := cacheStore s.dec.cache p, prev := p, offset := s.dec.offset + len }, p, 1, rfl,
      fun t ht => by rw [h t ht]; unfold completeOpcode put decStore; simp only [ht]⟩
  cases i with
  | run k =>
    refine ⟨{ s.dec with prev := s.dec.prev, offset := s.dec.offset + 1 }, s.dec.prev, k, rfl, fun t h => ?_⟩
    simp only [exec, execRun, h]; unfold completeOpcode put; simp only [h]
  | index j => exact give (cacheRead s.dec.cache j) 1 fun t h => by simp only [exec, execIndex, h]
  | diff dr dg db => exact give (addDeltas s.dec.prev dr dg db) 1 fun t h => by simp only [exec, execDiff, h]
  | luma dg drg dbg => exact give (addDeltas s.dec.prev (drg + dg) dg (dbg + dg)) 2 fun t h => by simp only [exec, execLuma, h]
  | rgb r g b => exact give ⟨r, g, b, s.dec.prev.a⟩ 4 fun t h => by simp only [exec, execRgb, h]
  | rgba r g b a => exact give ⟨r, g, b, a⟩ 5 fun t _ => rfl

/-- More fuel than the rest of the stream has bytes counts the same pixels. -/
theorem streamPixels_fuel (rd : Nat → Byte) (n : Nat) {k l o : Nat} (hk : n ≤ o + 8 + k) (hl : n ≤ o + 8 + l) :
    streamPixels rd n k o = streamPixels rd n l o := by
  induction k generalizing l o with
  | zero =>
    cases l with
    | zero => rfl
    | succ l => simp only [streamPixels]; rw [if_neg (by omega)]
  | succ k ih =>
    cases l with
    | zero => simp only [streamPixels]; rw [if_neg (by omega)]
    | succ l =>
      have := opLen_pos (rd o)
      simp only [streamPixels]
      rw [ih (l := l) (o := o + opLen (rd o)) (by omega) (by omega)]

/-- An opcode's pixels, and those after it; none from the loop bound on. -/
theorem streamPixels_step (rd : Nat → Byte) {n o : Nat} (h : o + 8 < n) :
    streamPixels rd n n o = opPixels (rd o) + streamPixels rd n n (o + opLen (rd o)) := by
  have := opLen_pos (rd o)
  rw [streamPixels_fuel rd n (k := n) (l := n + 1) (by omega) (by omega)]
  simp only [streamPixels]
  rw [if_pos h]

theorem streamPixels_stop (rd : Nat → Byte) {n o : Nat} (h : n ≤ o + 8) : streamPixels rd n n o = 0 := by
  rw [streamPixels_fuel rd n (k := n) (l := 0) (by omega) (by omega)]; rfl

/-- No more than 62 pixels a byte (R203). -/
theorem streamPixels_le (rd : Nat → Byte) (n k o : Nat) : streamPixels rd n k o ≤ 62 * (n - 8 - o) := by
  induction k generalizing o with
  | zero => exact Nat.zero_le _
  | succ k ih =>
    have h1 := opLen_pos (rd o)
    have h2 := opPixels_le (rd o)
    have h3 := ih (o + opLen (rd o))
    simp only [streamPixels]
    split <;> omega

theorem producedPixels_le (s : State) : producedPixels s ≤ 62 * (inputLength s - 22) := by
  unfold producedPixels
  split
  · exact Nat.zero_le _
  · have := streamPixels_le (readIn s) (inputLength s) (inputLength s) 14
    omega

/-- The launch premises of a decode, as R265 and R7 say them. -/
theorem decPremises_iff (s : State) :
    decPremises s = true ↔ 62 * (inputLength s - 22) ≤ s.poutRoom ∧ producedPixels s < 2 ^ Config.countW := by
  have := producedPixels_le s
  unfold decPremises producedFits
  simp only [Bool.and_eq_true, Bool.or_eq_true, decide_eq_true_eq]
  constructor
  · rintro ⟨h1, h2 | h2⟩
    · exact ⟨h1, by omega⟩
    · exact ⟨h1, h2⟩
  · rintro ⟨h1, h2⟩
    exact ⟨h1, .inr h2⟩

theorem put_zero (p : Pixel) (s : State) : put p 0 s = s := rfl

/-- A decode turn always answers a next state: one `Put` (of no pixel, but for an opcode) after an update of the engine
that keeps PIXCOUNT; and both are fixed by the engine's registers and IN. -/
theorem decTurn_eq_put (s : State) :
    ∃ (d : DecEngine) (p : Pixel) (n : Nat), d.pixCount = s.dec.pixCount ∧
      ∀ t : State, t.dec = s.dec → t.inBuf = s.inBuf → decTurn t = .next (put p n { t with dec := d }) := by
  have stay : ∀ t : State, t.dec = s.dec → t = put opaqueBlack 0 { t with dec := s.dec } := by
    intro t h; rw [← h]; rfl
  have rd : ∀ t : State, t.inBuf = s.inBuf → readIn t = readIn s := by intro t h; funext a; unfold readIn; rw [h]
  have len : ∀ t : State, t.dec = s.dec → inputLength t = inputLength s := by intro t h; unfold inputLength; rw [h]
  have raised : ∀ (e : DecErr) (off : Nat) (t : State), t.dec = s.dec →
      raiseError e off t =
        put opaqueBlack 0 { t with dec := { s.dec with err := e, errOff := off, phase := .doneErr } } := by
    intro e off t h; unfold raiseError; rw [h]; rfl
  cases hp : s.dec.phase
  · exact ⟨s.dec, opaqueBlack, 0, rfl, fun t h _ => by unfold decTurn; rw [h, hp]; exact congrArg _ (stay t h)⟩
  · cases hr : parseHeader (readIn s) (inputLength s) with
    | error e =>
      refine ⟨{ s.dec with err := e, errOff := 0, phase := .doneErr }, opaqueBlack, 0, rfl, fun t h hi => ?_⟩
      unfold decTurn decHeaderStep; rw [h, hp]; dsimp only; rw [rd t hi, len t h, hr]
      exact congrArg _ (raised e 0 t h)
    | ok f =>
      refine ⟨{ s.dec with
          width := f.width, height := f.height, channels := f.channels, colorspace := f.colorspace,
          offset := 14, phase := .stream }, opaqueBlack, 0, rfl, fun t h hi => ?_⟩
      unfold decTurn decHeaderStep; rw [h, hp]; dsimp only; rw [rd t hi, len t h, hr]; rfl
  · by_cases hb : s.dec.offset + 8 < inputLength s
    · have fetch : ∀ t : State, t.inBuf = s.inBuf → ∀ a n, fetchBytes t a n = fetchBytes s a n := by
        intro t h a n
        induction n generalizing a with
        | zero => rfl
        | succ n ih => simp only [fetchBytes, ih, rd t h]
      have enter : ∀ t : State, t.dec = s.dec → decTurn t = decOpcodeStep t := by
        intro t h; unfold decTurn; rw [h, hp]; dsimp only; rw [len t h, if_pos hb]
      have trap : ∀ e : DecErr, (∀ t : State, t.dec = s.dec → t.inBuf = s.inBuf →
          decOpcodeStep t = .next (raiseError e s.dec.offset t)) →
          ∃ (d : DecEngine) (p : Pixel) (n : Nat), d.pixCount = s.dec.pixCount ∧
            ∀ t : State, t.dec = s.dec → t.inBuf = s.inBuf → decTurn t = .next (put p n { t with dec := d }) :=
        fun e he => ⟨{ s.dec with err := e, errOff := s.dec.offset, phase := .doneErr }, opaqueBlack, 0, rfl,
          fun t h hi => (enter t h).trans ((he t h hi).trans (congrArg _ (raised _ _ t h)))⟩
      by_cases ht : inputLength s < s.dec.offset + opLen (readIn s s.dec.offset)
      · exact trap .truncatedStream fun t h hi => by
          unfold decOpcodeStep; simp only [h, len t h, rd t hi, ht, if_true]
      · cases hd : decode (fetchBytes s s.dec.offset (opLen (readIn s s.dec.offset))) with
        | ok r =>
          obtain ⟨d, p, n, h1, h2⟩ := exec_eq_put r.1 s
          refine ⟨d, p, n, h1, fun t h hi => (enter t h).trans ?_⟩
          unfold decOpcodeStep; simp only [h, len t h, rd t hi, ht, fetch t hi, hd, if_false]; exact h2 t h
        | error e =>
          cases e
          · exact trap .truncatedStream fun t h hi => by
              unfold decOpcodeStep; simp only [h, len t h, rd t hi, ht, fetch t hi, hd, if_false]
          · exact trap .unrecognizedOpcode fun t h hi => by
              unfold decOpcodeStep; simp only [h, len t h, rd t hi, ht, fetch t hi, hd, if_false]
    · exact ⟨{ s.dec with phase := .marker }, opaqueBlack, 0, rfl, fun t h _ => by
        unfold decTurn; rw [h, hp]; dsimp only; rw [len t h, if_neg hb]; rfl⟩
  · cases hm : markerOk (readIn s) s.dec.offset (inputLength s)
    · refine ⟨{ s.dec with err := .paddingMismatch, errOff := s.dec.offset, phase := .doneErr }, opaqueBlack, 0, rfl,
        fun t h hi => ?_⟩
      unfold decTurn decMarkerStep; rw [h, hp]; dsimp only; rw [rd t hi, len t h, hm]
      exact congrArg _ (raised _ _ t h)
    · refine ⟨{ s.dec with phase := .doneOk }, opaqueBlack, 0, rfl, fun t h hi => ?_⟩
      unfold decTurn decMarkerStep; rw [h, hp]; dsimp only; rw [rd t hi, len t h, hm]; rfl
  · exact ⟨s.dec, opaqueBlack, 0, rfl, fun t h _ => by unfold decTurn; rw [h, hp]; exact congrArg _ (stay t h)⟩
  · exact ⟨s.dec, opaqueBlack, 0, rfl, fun t h _ => by unfold decTurn; rw [h, hp]; exact congrArg _ (stay t h)⟩

theorem decTurn_of_header {s : State} (h : s.dec.phase = .header) : decTurn s = .next (decHeaderStep s) := by
  unfold decTurn; rw [h]

theorem decTurn_of_stream {s : State} (h : s.dec.phase = .stream) :
    decTurn s = if s.dec.offset + 8 < inputLength s then decOpcodeStep s
      else .next { s with dec := { s.dec with phase := .marker } } := by
  unfold decTurn; rw [h]

theorem decTurn_of_marker {s : State} (h : s.dec.phase = .marker) : decTurn s = .next (decMarkerStep s) := by
  unfold decTurn; rw [h]

theorem decTurn_of_not_busy {s : State} (h : decBusy s = false) : decTurn s = .next s := by
  unfold decTurn decBusy at *
  cases hp : s.dec.phase <;> simp [hp] at h ⊢

/-- A run of one step more. -/
theorem decRun_succ {s t : State} (k : Nat) (h : decTurn s = .next t) : decRun (k + 1) s = decRun k t := by
  show (match decTurn s with | .next t => decRun k t | .fault f => .fault f | .refused r => .refused r) = _
  rw [h]

end Sys2Proof.Machine
end

