-- ==== Sys2Proof/Laws/Encoder.lean ====
section
/-! SUPPORT. One lemma per step of the encode engine: what it emits and what it leaves. -/
namespace Sys2Proof.Machine

/-- The flush of a pending run as one emission: nothing when none is pending (R164, R173). -/
theorem encFlushRun_eq (s : State) :
    encFlushRun s = emit (runBytes s.enc.run) { s with enc := { s.enc with run := 0 } } := by
  unfold encFlushRun runBytes
  by_cases h : s.enc.run = 0
  · have : ({ s with enc := { s.enc with run := 0 } } : State) = s := by rw [← h]
    rw [if_neg (by omega), if_pos h, this]; rfl
  · rw [if_pos (by omega), if_neg h]; rfl

theorem runBytes_length (n : Nat) : (runBytes n).length = if n = 0 then 0 else 1 := by
  unfold runBytes; split <;> rfl

/-- Step 1: a run grows by one, or the 62nd pixel flushes it (R163). -/
theorem encRunStep_eq (s : State) :
    encRunStep s = if s.enc.run = 61 then emit [0xFD#8] { s with enc := { s.enc with run := 0 } }
      else { s with enc := { s.enc with run := s.enc.run + 1 } } := by
  unfold encRunStep encFlushRun
  by_cases h : s.enc.run = 61
  · simp only [h]; rfl
  · have : ¬ s.enc.run + 1 = 62 := by omega
    simp only [this, h, if_false]

/-- Step 3 as one update (R162, R171). -/
theorem encAdvance_eq (p : Pixel) (s : State) :
    encAdvance p s = { s with enc := { s.enc with
      prev := p, pos := s.enc.pos + 1, phase := if s.enc.pos + 1 = pixelCount s then .finish else s.enc.phase } } := by
  unfold encAdvance
  have : pixelCount { s with enc := { s.enc with prev := p, pos := s.enc.pos + 1 } } = pixelCount s := rfl
  simp only [this]; split <;> rfl

/-- A pixel step is one emission on one update of the engine, in one of four ways (R163 to R171). -/
theorem encPixelStep_eq (s : State) :
    encPixelStep s =
      (let p := readPin s s.enc.pos
       let ph := if s.enc.pos + 1 = pixelCount s then EncPhase.finish else s.enc.phase
       if p = s.enc.prev then
         if s.enc.run = 61 then
           emit [0xFD#8] { s with enc := { s.enc with run := 0, prev := p, pos := s.enc.pos + 1, phase := ph } }
         else { s with enc := { s.enc with run := s.enc.run + 1, prev := p, pos := s.enc.pos + 1, phase := ph } }
       else if cacheRead s.enc.cache (pixelHash p) = p then
         emit (runBytes s.enc.run ++ encode (.index (pixelHash p)))
           { s with enc := { s.enc with run := 0, prev := p, pos := s.enc.pos + 1, phase := ph } }
       else
         emit (runBytes s.enc.run ++ encode (selectOpcode p s.enc.prev))
           { s with enc := { s.enc with
               cache := cacheStore s.enc.cache p, run := 0, prev := p, pos := s.enc.pos + 1, phase := ph } }) := by
  simp only [encPixelStep, encAdvance_eq, pixelEq_iff, encRunStep_eq]
  by_cases h1 : readPin s s.enc.pos = s.enc.prev
  · simp only [h1, if_true]
    by_cases h2 : s.enc.run = 61
    · simp only [h2, if_true]; rfl
    · simp only [h2, if_false]; rfl
  · simp only [h1, if_false, encDifferStep, encFlushRun_eq, pixelEq_iff]
    rw [emit_enc]; dsimp only
    by_cases h2 : cacheRead s.enc.cache (pixelHash (readPin s s.enc.pos)) = readPin s s.enc.pos
    · simp only [h2, if_true, emit_emit]; rfl
    · simp only [h2, if_false, encMissStep]; rw [← emit_emit]; rfl

/-- The finish step is one emission (R173). -/
theorem encFinishStep_eq (s : State) :
    encFinishStep s =
      emit (runBytes s.enc.run ++ marker) { s with enc := { s.enc with run := 0, phase := .done } } := by
  simp only [encFinishStep, encFlushRun_eq, emit_emit]; rfl

theorem encTurn_of_idle {s : State} (h : s.enc.phase = .idle) : encTurn s = s := by simp only [encTurn, h]

theorem encTurn_of_header {s : State} (h : s.enc.phase = .header) : encTurn s = encHeaderStep s := by
  simp only [encTurn, h]

theorem encTurn_of_pixels {s : State} (h : s.enc.phase = .pixels) :
    encTurn s = if s.enc.pos < pixelCount s then encPixelStep s else s := by simp only [encTurn, h]

theorem encTurn_of_finish {s : State} (h : s.enc.phase = .finish) : encTurn s = encFinishStep s := by
  simp only [encTurn, h]

theorem encTurn_of_done {s : State} (h : s.enc.phase = .done) : encTurn s = s := by simp only [encTurn, h]

/-- What an encode turn can do at all: emit bytes after an update of the engine that keeps OUTLEN; and both are fixed by
the engine's registers and PIN. -/
theorem encTurn_eq_emit (s : State) :
    ∃ (v : List Byte) (e : EncEngine), e.outLen = s.enc.outLen ∧
      ∀ t : State, t.enc = s.enc → t.pin = s.pin → encTurn t = emit v { t with enc := e } := by
  have stay : (∀ t : State, t.enc = s.enc → t.pin = s.pin → encTurn t = t) →
      ∃ (v : List Byte) (e : EncEngine), e.outLen = s.enc.outLen ∧
        ∀ t : State, t.enc = s.enc → t.pin = s.pin → encTurn t = emit v { t with enc := e } := fun h =>
    ⟨[], s.enc, rfl, fun t ht hp => by rw [h t ht hp, ← ht]; rfl⟩
  cases hp : s.enc.phase
  · exact stay fun t h _ => encTurn_of_idle (by rw [h, hp])
  · refine ⟨headerBytes s.enc.width s.enc.height s.enc.channels s.enc.colorspace,
      { s.enc with phase := afterHeader (pixelCount s) }, rfl, fun t h _ => ?_⟩
    rw [encTurn_of_header (by rw [h, hp])]
    unfold encHeaderStep pixelCount emit; simp only [h]
  · by_cases hlt : s.enc.pos < pixelCount s
    · have key : ∀ t : State, t.enc = s.enc → encTurn t = encPixelStep t := fun t h => by
        rw [encTurn_of_pixels (by rw [h, hp]), if_pos]; unfold pixelCount at *; rw [h]; exact hlt
      have hr : ∀ t : State, t.pin = s.pin → readPin t s.enc.pos = readPin s s.enc.pos := fun t h => by
        unfold readPin; rw [h]
      have hm : ∀ t : State, t.enc = s.enc → pixelCount t = pixelCount s := fun t h => by unfold pixelCount; rw [h]
      have give : ∀ (v : List Byte) (c : Cache) (r : Nat), (∀ t : State, t.enc = s.enc → t.pin = s.pin →
          encTurn t = emit v { t with enc := { s.enc with
            cache := c, run := r, prev := readPin s s.enc.pos, pos := s.enc.pos + 1,
            phase := if s.enc.pos + 1 = pixelCount s then .finish else s.enc.phase } }) →
          ∃ (v : List Byte) (e : EncEngine), e.outLen = s.enc.outLen ∧
            ∀ t : State, t.enc = s.enc → t.pin = s.pin → encTurn t = emit v { t with enc := e } :=
        fun v c r h => by refine ⟨v, _, ?_, h⟩; rfl
      by_cases h1 : readPin s s.enc.pos = s.enc.prev
      · by_cases h2 : s.enc.run = 61
        · refine give [0xFD#8] s.enc.cache 0 fun t he hpn => ?_
          rw [key t he, encPixelStep_eq]; simp only [he, hr t hpn, hm t he, h1, h2, if_true]
        · refine give [] s.enc.cache (s.enc.run + 1) fun t he hpn => ?_
          rw [key t he, encPixelStep_eq]; simp only [he, hr t hpn, hm t he, h1, h2, if_true, if_false]; rfl
      · by_cases h2 : cacheRead s.enc.cache (pixelHash (readPin s s.enc.pos)) = readPin s s.enc.pos
        · refine give (runBytes s.enc.run ++ encode (.index (pixelHash (readPin s s.enc.pos)))) s.enc.cache 0
            fun t he hpn => ?_
          rw [key t he, encPixelStep_eq]; simp only [he, hr t hpn, hm t he, h1, h2, if_true, if_false]
        · refine give (runBytes s.enc.run ++ encode (selectOpcode (readPin s s.enc.pos) s.enc.prev))
            (cacheStore s.enc.cache (readPin s s.enc.pos)) 0 fun t he hpn => ?_
          rw [key t he, encPixelStep_eq]; simp only [he, hr t hpn, hm t he, h1, h2, if_false]
    · refine stay fun t h _ => ?_
      rw [encTurn_of_pixels (by rw [h, hp]), if_neg]; unfold pixelCount at *; rw [h]; exact hlt
  · refine ⟨runBytes s.enc.run ++ marker, { s.enc with run := 0, phase := .done }, rfl, fun t h _ => ?_⟩
    rw [encTurn_of_finish (by rw [h, hp]), encFinishStep_eq, h]
  · exact stay fun t h _ => encTurn_of_done (by rw [h, hp])

/-- A run of one step more. -/
theorem encRun_succ (k : Nat) (s : State) : encRun (k + 1) s = encTurn (encRun k s) := by
  induction k generalizing s with
  | zero => rfl
  | succ k ih => exact ih (encTurn s)

end Sys2Proof.Machine
end

