-- ==== Sys2Proof/Laws/PerInstr.lean ====
section
/-! SUPPORT. Laws of the opcodes as syntax, one lemma per constructor. -/
namespace Sys2Proof.Laws

/-- The encoder's length rule (R70, R79): a well-formed opcode is encoded in as many bytes as its first byte asks for. -/
def EncodeLength.Statement (i : Instr) : Prop :=
  i.wellFormed = true → ∃ b0 t, encode i = b0 :: t ∧ opLen b0 = (encode i).length

theorem EncodeLength.index (i : Fin 64) : EncodeLength.Statement (.index i) := by
  intro _
  refine ⟨_, _, rfl, ?_⟩
  revert i; decide

/-- A value in an interval of `n` integers that starts at `-bias` is a field value less the bias. -/
theorem exists_field {n bias : Nat} {lo hi v : Int} (h : inRange lo hi v = true) (hlo : lo = -(bias : Int))
    (hhi : hi = (n : Int) - 1 - bias) : ∃ x : Fin n, (x.val : Int) - bias = v := by
  simp only [inRange, Bool.and_eq_true, decide_eq_true_eq] at h
  exact ⟨⟨(v + bias).toNat, by omega⟩, by show ((v + bias).toNat : Int) - bias = v; omega⟩

theorem EncodeLength.diff (dr dg db : Int) : EncodeLength.Statement (.diff dr dg db) := by
  intro h
  simp only [Instr.wellFormed, Bool.and_eq_true] at h
  obtain ⟨x, rfl⟩ := exists_field (n := 4) (bias := 2) h.1.1 rfl rfl
  obtain ⟨y, rfl⟩ := exists_field (n := 4) (bias := 2) h.1.2 rfl rfl
  obtain ⟨z, rfl⟩ := exists_field (n := 4) (bias := 2) h.2 rfl rfl
  refine ⟨_, _, rfl, ?_⟩
  clear h; revert x y z; decide

theorem EncodeLength.luma (dg drg dbg : Int) : EncodeLength.Statement (.luma dg drg dbg) := by
  intro h
  simp only [Instr.wellFormed, Bool.and_eq_true] at h
  obtain ⟨x, rfl⟩ := exists_field (n := 64) (bias := 32) h.1.1 rfl rfl
  refine ⟨_, _, rfl, ?_⟩
  show opLen _ = 2
  clear h; revert x; decide

theorem EncodeLength.run (len : Nat) : EncodeLength.Statement (.run len) := by
  intro h
  simp only [Instr.wellFormed, Bool.and_eq_true, decide_eq_true_eq] at h
  refine ⟨_, _, rfl, ?_⟩
  show opLen (0xC0#8 ||| BitVec.ofNat 8 (len - 1)) = 1
  have fields : ∀ x : Fin 62, opLen (0xC0#8 ||| BitVec.ofNat 8 x.val) = 1 := by decide
  exact fields ⟨len - 1, by omega⟩

theorem EncodeLength.rgb (r g b : Byte) : EncodeLength.Statement (.rgb r g b) := fun _ => ⟨_, _, rfl, rfl⟩

theorem EncodeLength.rgba (r g b a : Byte) : EncodeLength.Statement (.rgba r g b a) := fun _ => ⟨_, _, rfl, rfl⟩

end Sys2Proof.Laws
end

