-- ==== Sys2Proof/Tests/Slice0.lean ====
section
/-! SUPPORT. The model's own tests: the checks of WellFormed, decoding, one step of each kind, the host's registers, and
for every statement with hypotheses a state that meets them. Expected results are the spec's worked examples and tables
(rule numbers in the docstrings), or hand calculation from its rules. -/
namespace Sys2Proof.Tests
open Sys2Proof.Machine

/-! Helpers -/

/-- A machine that has just reset, with `OUT` and `POUT` buffers placed. -/
def placed : State := { State.reset with outRoom := 64, poutRoom := 1000 }

/-- DEC in STREAM at its seeds, with these opcode bytes at offset 14 and room for the marker after them, its turn next. -/
def streamOf (bytes : List Byte) : State :=
  let t := decStart placed
  { t with
    inBuf := Memory.writeAll [] 14 bytes
    dec := { t.dec with offset := 14, phase := .stream, inLen := BitVec.ofNat 32 (22 + bytes.length) }
    sched := [.dec] }

/-- DEC at its header step over these bytes, its turn next. -/
def headerOf (bytes : List Byte) : State :=
  let t := decStart placed
  { t with
    inBuf := Memory.writeAll [] 0 bytes
    dec := { t.dec with inLen := BitVec.ofNat 32 bytes.length }
    sched := [.dec] }

/-- DEC at its marker step over an input of `n` bytes, `bytes` from `offset` on, its turn next. -/
def markerAt (offset n : Nat) (bytes : List Byte) : State :=
  let t := decStart placed
  { t with
    inBuf := Memory.writeAll [] offset bytes
    dec := { t.dec with offset := offset, phase := .marker, inLen := BitVec.ofNat 32 n }
    sched := [.dec] }

/-- ENC at a pixel step on `p` after `prev` with `run` pending, at the seeds otherwise, one pixel of two done, its turn
next. -/
def pixelAfter (prev : Pixel) (run : Nat) (p : Pixel) : State :=
  let t := encStart placed
  { t with
    pin := Memory.write [] 1 p
    enc := { t.enc with prev := prev, run := run, pos := 1, phase := .pixels, count := 2#32 }
    sched := [.enc] }

/-- ENC just started on these pixels. -/
def encodeOf (ps : List Pixel) : State :=
  let t := encStart placed
  { t with pin := Memory.writeAll [] 0 ps, enc := { t.enc with count := BitVec.ofNat 32 ps.length, channels := .rgba } }

/-- Both engines BUSY, at their header steps. -/
def bothBusy : State := { encStart (decStart placed) with sched := [.enc] }

/-- The next state, if there is one. -/
def nextOf : Host.Outcome State Fault Refusal → Option State
  | .next t => some t
  | .fault _ => none
  | .refused _ => none

/-- The refusal, if there is one. -/
def refusalOf : Host.Outcome State Fault Refusal → Option Refusal
  | .next _ => none
  | .fault _ => none
  | .refused r => some r

/-- The fault, if there is one. -/
def faultOf : Host.Outcome State Fault Refusal → Option Fault
  | .next _ => none
  | .fault f => some f
  | .refused _ => none

/-- What the decoder reads, or why it does not. -/
def readOf (bs : List Byte) : (Instr × List Byte) ⊕ DecodeError :=
  match decode bs with
  | .ok r => .inl r
  | .error e => .inr e

/-- The pixels the step appended, the offset and the phase after it. -/
def decoded (s : State) : Option (List Pixel × Nat × DecPhase) :=
  (nextOf (step s)).map fun t => (outPixels t, t.dec.offset, t.dec.phase)

/-- A cache slot of DEC after the step. -/
def slotAfter (s : State) (i : Fin 64) : Option Pixel := (nextOf (step s)).map fun t => cacheRead t.dec.cache i

/-- The bytes the step emitted from OUTLEN 0 on, the run and the phase after it. -/
def encoded (s : State) : Option (List Byte × Nat × EncPhase) :=
  (nextOf (step s)).map fun t => (outFrame t, t.enc.run, t.enc.phase)

/-! WellFormed refuses an ill-formed term for each of its checks (R77) -/

theorem test_wf_diff_red_low : (Instr.diff (-3) 0 0).wellFormed = false := by decide
theorem test_wf_diff_red_high : (Instr.diff 2 0 0).wellFormed = false := by decide
theorem test_wf_diff_green_low : (Instr.diff 0 (-3) 0).wellFormed = false := by decide
theorem test_wf_diff_green_high : (Instr.diff 0 2 0).wellFormed = false := by decide
theorem test_wf_diff_blue_low : (Instr.diff 0 0 (-3)).wellFormed = false := by decide
theorem test_wf_diff_blue_high : (Instr.diff 0 0 2).wellFormed = false := by decide
theorem test_wf_luma_green_low : (Instr.luma (-33) 0 0).wellFormed = false := by decide
theorem test_wf_luma_green_high : (Instr.luma 32 0 0).wellFormed = false := by decide
theorem test_wf_luma_red_low : (Instr.luma 0 (-9) 0).wellFormed = false := by decide
theorem test_wf_luma_red_high : (Instr.luma 0 8 0).wellFormed = false := by decide
theorem test_wf_luma_blue_low : (Instr.luma 0 0 (-9)).wellFormed = false := by decide
theorem test_wf_luma_blue_high : (Instr.luma 0 0 8).wellFormed = false := by decide
theorem test_wf_run_zero : (Instr.run 0).wellFormed = false := by decide
theorem test_wf_run_63 : (Instr.run 63).wellFormed = false := by decide
theorem test_wf_line_refuses_its_opcode : (Line.op (.run 63)).wellFormed = false := by decide
/-- The bounds themselves are accepted. -/
theorem test_wf_bounds :
    (Instr.diff (-2) 1 (-2)).wellFormed = true ∧ (Instr.luma (-32) 7 (-8)).wellFormed = true ∧
      (Instr.luma 31 (-8) 7).wellFormed = true ∧ (Instr.run 1).wellFormed = true ∧
      (Instr.run 62).wellFormed = true := by decide

/-! Decoding: words written out bit by bit from the formats of 30_encoding.md -/

/-- `00iiiiii`, i = 63 (R71). -/
theorem test_decode_index : readOf [0b00111111#8] = .inl (.index 63, []) := by decide
/-- `01rrggbb`, fields 00, 11, 01 less 2 (R72). -/
theorem test_decode_diff : readOf [0b01001101#8] = .inl (.diff (-2) 1 (-1), []) := by decide
/-- `10gggggg rrrrbbbb`, fields 111111 less 32, 0000 and 1111 less 8 (R73). -/
theorem test_decode_luma : readOf [0b10111111#8, 0b00001111#8] = .inl (.luma 31 (-8) 7, []) := by decide
/-- `11llllll`, l = 61 (R74). -/
theorem test_decode_run : readOf [0b11111101#8] = .inl (.run 62, []) := by decide
/-- `11111110` and three bytes, none of them classified (R75, R79). -/
theorem test_decode_rgb : readOf [0b11111110#8, 0xFF#8, 0xFE#8, 0x00#8, 0x09#8] = .inl (.rgb 0xFF 0xFE 0x00, [0x09#8]) := by
  decide
/-- `11111111` and four bytes (R76). -/
theorem test_decode_rgba : readOf [0b11111111#8, 1#8, 2#8, 3#8, 4#8] = .inl (.rgba 1 2 3 4, []) := by decide
/-- The bytes end inside the opcode. -/
theorem test_decode_truncated : readOf [0xFE#8, 1#8, 2#8] = .inr .truncated := by decide
/-- 95 S1's encodings, written by the encoder. -/
theorem test_encode :
    encode (.diff 1 0 0) = [0x7A#8] ∧ encode (.luma 8 2 (-3)) = [0xA8#8, 0xA5#8] ∧ encode (.run 62) = [0xFD#8] := by decide
/-- A table word with fewer bits than its instruction has zeros above them. -/
theorem test_table_word : decodeTableWord 8 0xFE = some (.rgb 0 0 0) ∧ decodeTableWord 8 0xFF = some (.rgba 0 0 0 0) := by
  decide

/-! One opcode step each (R196 to R201) -/

/-- R196: `FE 0A 14 1E` appends (10,20,30,255) and writes it to slot 9. -/
theorem test_rgb : decoded (streamOf [0xFE#8, 0x0A#8, 0x14#8, 0x1E#8]) = some ([⟨10, 20, 30, 255⟩], 18, .stream) := by decide
theorem test_rgb_slot : slotAfter (streamOf [0xFE#8, 0x0A#8, 0x14#8, 0x1E#8]) 9 = some ⟨10, 20, 30, 255⟩ := by decide
/-- R197: `FF 01 02 03 04` appends (1,2,3,4) and writes it to slot 14. -/
theorem test_rgba : decoded (streamOf [0xFF#8, 1#8, 2#8, 3#8, 4#8]) = some ([⟨1, 2, 3, 4⟩], 19, .stream) := by decide
theorem test_rgba_slot : slotAfter (streamOf [0xFF#8, 1#8, 2#8, 3#8, 4#8]) 14 = some ⟨1, 2, 3, 4⟩ := by decide
/-- R198: `00` appends TB. -/
theorem test_index : decoded (streamOf [0x00#8]) = some ([⟨0, 0, 0, 0⟩], 15, .stream) := by decide

/-- R210's stream after its first opcode: slot 0 holds (64,0,0,0), and INDEX 5 is next. -/
def foreignSlot : State :=
  let t := streamOf [0x05#8]
  { t with dec := { t.dec with cache := cacheStore t.dec.cache ⟨64, 0, 0, 0⟩, prev := ⟨64, 0, 0, 0⟩ } }

/-- R210: INDEX 5 yields the seed TB and stores it into slot 0. -/
theorem test_index_evicts :
    cacheRead foreignSlot.dec.cache 0 = ⟨64, 0, 0, 0⟩ ∧ slotAfter foreignSlot 0 = some ⟨0, 0, 0, 0⟩ := by decide
/-- R199: `40` after OB appends (254,254,254,255); the addition wraps. -/
theorem test_diff : decoded (streamOf [0x40#8]) = some ([⟨254, 254, 254, 255⟩], 15, .stream) := by decide
/-- R199: `7A` after OB appends (1,0,0,255). -/
theorem test_diff_red : decoded (streamOf [0x7A#8]) = some ([⟨1, 0, 0, 255⟩], 15, .stream) := by decide
/-- R200: `A8 A5` after OB appends (10,8,5,255). -/
theorem test_luma : decoded (streamOf [0xA8#8, 0xA5#8]) = some ([⟨10, 8, 5, 255⟩], 16, .stream) := by decide
/-- R200: `80 00` after OB appends (216,224,216,255). -/
theorem test_luma_wraps : decoded (streamOf [0x80#8, 0x00#8]) = some ([⟨216, 224, 216, 255⟩], 16, .stream) := by decide
/-- R201: `C1` appends OB twice and writes no slot (its hash is 53). -/
theorem test_run : decoded (streamOf [0xC1#8]) = some ([⟨0, 0, 0, 255⟩, ⟨0, 0, 0, 255⟩], 15, .stream) := by decide
theorem test_run_slot : slotAfter (streamOf [0xC1#8]) 53 = some ⟨0, 0, 0, 0⟩ := by decide

/-! Placing an opcode from reset (assumption log 13) -/

theorem test_withFetchWord : decoded (State.reset.withFetchWord 16 0xA5A8) = some ([⟨10, 8, 5, 255⟩], 16, .stream) := by
  decide
theorem test_reset_stutters : nextOf (step State.reset) = some State.reset := by decide

/-! The decode engine's other steps -/

/-- The header of R131's example. -/
def header11 : List Byte :=
  [0x71#8, 0x6F#8, 0x69#8, 0x66#8, 0#8, 0#8, 0#8, 1#8, 0#8, 0#8, 0#8, 1#8, 4#8, 0#8]

/-- R131's and R133's example. -/
theorem test_header_bytes : headerBytes 1#32 1#32 .rgba .srgb = header11 := by decide
theorem test_header_step :
    (nextOf (step (headerOf header11))).map
      (fun t => (t.dec.width, t.dec.height, t.dec.channels, t.dec.colorspace, t.dec.offset, t.dec.phase)) =
      some (1#32, 1#32, .rgba, .srgb, 14, .stream) := by decide
/-- R190's example: a 13-byte buffer raises HeaderTooShort. -/
theorem test_header_too_short :
    (nextOf (step (headerOf (header11.take 13)))).map (fun t => (t.dec.err, t.dec.errOff, t.dec.phase)) =
      some (.headerTooShort, 0, .doneErr) := by decide
/-- R135: the comparison is case-sensitive. -/
theorem test_header_bad_magic :
    (nextOf (step (headerOf ([0x51#8, 0x4F#8, 0x49#8, 0x46#8] ++ header11.drop 4)))).map
      (fun t => (t.dec.err, t.dec.phase)) = some (.invalidMagic, .doneErr) := by decide
/-- R142's example: at N = 22 the marker is accepted. -/
theorem test_marker_ok : decoded (markerAt 14 22 marker) = some ([], 14, .doneOk) := by decide
/-- R142's example: `IN[21] = 2` is refused, at the offset where the loop stopped (R230). -/
theorem test_marker_bad :
    (nextOf (step (markerAt 14 22 [0#8, 0#8, 0#8, 0#8, 0#8, 0#8, 0#8, 2#8]))).map (fun t => (t.dec.err, t.dec.errOff)) =
      some (.paddingMismatch, 14) := by decide
/-- R142: fewer than 8 bytes remain. -/
theorem test_marker_short :
    (nextOf (step (markerAt 14 21 marker))).map (fun t => (t.dec.err, t.dec.phase)) =
      some (.paddingMismatch, .doneErr) := by decide

/-! The arithmetic unit (the worked examples of 40_arithmetic.md) -/

theorem test_delta : delta 3 5 = -2 ∧ delta 0 255 = -255 ∧ delta 255 0 = 255 := by decide
theorem test_hash :
    pixelHash ⟨255, 255, 255, 255⟩ = 38 ∧ pixelHash opaqueBlack = 53 ∧ pixelHash ⟨64, 0, 0, 0⟩ = 0 ∧
      pixelHash ⟨0, 0, 0, 128⟩ = 0 := by decide
theorem test_wrapAdd : wrapAdd 255 1 = 0#8 ∧ wrapAdd 0 (-1) = 255#8 ∧ wrapAdd 200 (-40) = 160#8 := by decide
theorem test_fits :
    fitsDiff (-2) 1 0 = true ∧ fitsDiff 2 0 0 = false ∧ fitsLuma 31 7 (-8) = true ∧ fitsLuma 32 0 0 = false := by decide

/-! One step of the encode engine each (R160, R163 to R170, R173) -/

/-- R160's example. -/
theorem test_enc_header :
    encoded { encodeOf [opaqueBlack] with
      enc := { (encodeOf [opaqueBlack]).enc with width := 2#32, height := 1#32 }, sched := [.enc] } =
      some ([0x71#8, 0x6F#8, 0x69#8, 0x66#8, 0#8, 0#8, 0#8, 2#8, 0#8, 0#8, 0#8, 1#8, 4#8, 0#8], 0, .pixels) := by decide
/-- R163: the 62nd equal pixel emits `FD`. -/
theorem test_enc_run_cap : encoded (pixelAfter opaqueBlack 61 opaqueBlack) = some ([0xFD#8], 0, .finish) := by decide
theorem test_enc_run_grows : encoded (pixelAfter opaqueBlack 60 opaqueBlack) = some ([], 61, .finish) := by decide
/-- R164's and R167's example: `C1 7A`. -/
theorem test_enc_flush_diff : encoded (pixelAfter opaqueBlack 2 ⟨1, 0, 0, 255⟩) = some ([0xC1#8, 0x7A#8], 0, .finish) := by
  decide
/-- R165's example: TB is INDEX 0 at the seeds, although alpha changed. -/
theorem test_enc_index : encoded (pixelAfter opaqueBlack 0 ⟨0, 0, 0, 0⟩) = some ([0x00#8], 0, .finish) := by decide
/-- R168's example. -/
theorem test_enc_luma : encoded (pixelAfter opaqueBlack 0 ⟨10, 8, 5, 255⟩) = some ([0xA8#8, 0xA5#8], 0, .finish) := by decide
/-- R169's example. -/
theorem test_enc_rgb :
    encoded (pixelAfter opaqueBlack 0 ⟨100, 150, 200, 255⟩) = some ([0xFE#8, 0x64#8, 0x96#8, 0xC8#8], 0, .finish) := by decide
/-- R169: red 255 to 0 does not wrap, so it is no DIFF. -/
theorem test_enc_rgb_no_wrap :
    encoded (pixelAfter ⟨255, 0, 0, 255⟩ 0 opaqueBlack) = some ([0xFE#8, 0#8, 0#8, 0#8], 0, .finish) := by decide
/-- R170's example. -/
theorem test_enc_rgba :
    encoded (pixelAfter opaqueBlack 0 ⟨1, 2, 3, 4⟩) = some ([0xFF#8, 1#8, 2#8, 3#8, 4#8], 0, .finish) := by decide
/-- R166's example: the miss is stored at slot 56. -/
theorem test_enc_store :
    (nextOf (step (pixelAfter opaqueBlack 0 ⟨1, 0, 0, 255⟩))).map (fun t => cacheRead t.enc.cache 56) =
      some ⟨1, 0, 0, 255⟩ := by decide

/-- ENC at its finish step with `run` pending. -/
def finishing (run : Nat) : State :=
  let t := encStart placed
  { t with enc := { t.enc with run := run, phase := .finish }, sched := [.enc] }

/-- R173: 8 bytes, or 9 when a run is pending. -/
theorem test_enc_finish :
    encoded (finishing 0) = some ([0#8, 0#8, 0#8, 0#8, 0#8, 0#8, 0#8, 1#8], 0, .done) ∧
      encoded (finishing 1) = some ([0xC0#8, 0#8, 0#8, 0#8, 0#8, 0#8, 0#8, 0#8, 1#8], 0, .done) := by decide

/-! The host -/

/-- R36: START while not BUSY enters HEADER, and any other bit is ignored; with bit 0 clear nothing happens. -/
theorem test_start :
    (nextOf (hostAct (.writeReg 0x00 4 0xFFFFFFFF#32) placed)).map (fun t => t.enc.phase) = some .header ∧
      nextOf (hostAct (.writeReg 0x20 4 0xFFFFFFFE#32) placed) = some placed := by decide
/-- R39: a write of 3 stores 2, and reserved bits read 0. -/
theorem test_format :
    (nextOf (hostAct (.writeReg 0x10 4 0xFFFFFFFF#32) placed)).map (regView .encFormat) = some (some 10#32) := by decide
/-- R45: a configuration write while BUSY is ignored. -/
theorem test_busy_write_ignored :
    nextOf (hostAct (.writeReg 0x08 4 7#32) (encStart placed)) = some (encStart placed) := by decide
/-- R37: DEC_STATUS at DONE_ERR with PaddingMismatch reads STATE 3 and ERR 5. -/
theorem test_status :
    regView .decStatus { placed with dec := { placed.dec with phase := .doneErr, err := .paddingMismatch } } =
      some 0x53#32 := by decide
/-- R44: DEC_OFFSET shows ERROFF at DONE_ERR. -/
theorem test_offset :
    regView .decOffset { placed with dec := { placed.dec with phase := .doneErr, offset := 9, errOff := 7 } } =
      some 7#32 := by decide
/-- R35: 0x40 holds no register, and a half word is no access. -/
theorem test_bad_access :
    refusalOf (hostAct (.readReg 0x40 4) placed) = some .badRegisterAccess ∧
      refusalOf (hostAct (.writeReg 0x00 2 1#32) placed) = some .badRegisterAccess := by decide
/-- R265: 22 + 5M bytes must fit. -/
theorem test_launch_refused :
    refusalOf (hostAct (.writeReg 0x00 4 1#32) { placed with outRoom := 21 }) = some .launchPremise := by decide
/-- R7: a RUN of 62 and a DIFF give 63 pixels, counted up to the marker; a frame whose header does not parse gives none. -/
theorem test_producedPixels :
    producedPixels (headerOf (header11 ++ [0xFD#8, 0x7A#8] ++ marker)) = 63 ∧
      producedPixels (headerOf (0#8 :: header11.drop 1 ++ [0xFD#8] ++ marker)) = 0 := by decide
/-- R203, R265: 62 pixels must fit for a stream of one byte. -/
theorem test_decode_launch_refused :
    refusalOf (hostAct (.writeReg 0x20 4 1#32)
      { placed with poutRoom := 61, dec := { placed.dec with inLen := 23#32 } }) = some .launchPremise := by decide
/-- R237: power-on returns both engines to IDLE from the middle of a run. -/
theorem test_powerOn :
    (nextOf (hostAct .powerOn bothBusy)).map (fun t => (t.enc.phase, t.dec.phase, t.outRoom)) =
      some (.idle, .idle, 64) := by decide
/-- R62: a write to a BUSY engine's input. -/
theorem test_race : faultOf (hostAct (.writeIn 0 1#8) (decStart placed)) = some .bufferRace := by decide
/-- R53: byte 5 of PIN is pixel 1's green. -/
theorem test_pin_byte :
    (nextOf (hostAct (.writePinByte 5 9#8) { placed with pin := [(1, ⟨1, 2, 3, 4⟩)] })).map (fun t => t.pin) =
      some [(1, ⟨1, 9, 3, 4⟩)] := by decide

/-! Witnesses: for every statement with hypotheses, a case that meets all of them. Clauses are met at a boundary. -/

theorem witness_DecodeOfEncodeIsTheOpcode :
    (Instr.luma (-32) 7 (-8)).wellFormed = true ∧ (Instr.run 62).wellFormed = true := by decide
theorem witness_EncodeOfDecodeIsTheBytesRead :
    decode [0xFE#8, 1#8, 2#8, 3#8, 4#8] = .ok (.rgb 1 2 3, [4#8]) := rfl
/-- Each length, with exactly the bytes it asks for. -/
theorem witness_EveryByteSequenceDecodesByItsFirstByte :
    opLen 0xFD = 1 ∧ opLen 0xBF = 2 ∧ opLen 0xFE = 4 ∧ opLen 0xFF = 5 := by decide
theorem witness_AssemblerRefusesExactlyOperandsOutOfRange :
    (∃ l ∈ [Line.endMark, .op (.run 63)], l.wellFormed = false) ∧ assemble [.op (.run 62), .endMark] ≠ none := by decide
theorem witness_MeasuredDeltasAddBack : (⟨0, 0, 0, 255⟩ : Pixel).a = (⟨255, 255, 255, 255⟩ : Pixel).a := by decide
theorem witness_SelectorTests_at_their_bounds :
    fitsDiff (-2) 1 1 = true ∧ fitsDiff (-3) 1 1 = false ∧ fitsLuma (-32) (-8) 7 = true ∧ fitsLuma (-32) (-9) 7 = false ∧
      pixelEq ⟨1, 2, 3, 4⟩ ⟨1, 2, 3, 5⟩ = false := by decide
theorem witness_MarkerAcceptedExactlyWhenItIsAllThatRemains :
    markerOk (readIn (markerAt 14 22 marker)) 14 22 = true ∧ markerOk (readIn (markerAt 14 22 marker)) 14 23 = false := by decide
/-- N = 13, and N = 14 with and without the magic. -/
theorem witness_HeaderStepParsesOrRaises :
    (headerOf (header11.take 13)).dec.phase = .header ∧ inputLength (headerOf (header11.take 13)) < 14 ∧
      14 ≤ inputLength (headerOf header11) ∧ readIn (headerOf header11) 0 = 0x71#8 ∧
      readIn (headerOf header11) 1 = 0x6F#8 ∧ readIn (headerOf header11) 2 = 0x69#8 ∧
      readIn (headerOf header11) 3 = 0x66#8 ∧ readIn (headerOf (0#8 :: header11.drop 1)) 0 ≠ 0x71#8 := by decide
theorem witness_MarkerStepEndsTheDecode :
    (markerAt 14 22 marker).dec.phase = .marker ∧
      markerOk (readIn (markerAt 14 22 marker)) (markerAt 14 22 marker).dec.offset (inputLength (markerAt 14 22 marker)) =
        true ∧
      markerOk (readIn (markerAt 14 21 marker)) (markerAt 14 21 marker).dec.offset (inputLength (markerAt 14 21 marker)) =
        false := by decide
/-- The ends of the byte ranges of the six opcodes' encoding clauses. -/
theorem witness_opcode_byte_ranges :
    readOf [0x00#8] = .inl (.index 0, []) ∧ readOf [0x3F#8] = .inl (.index 63, []) ∧
      readOf [0x40#8] = .inl (.diff (-2) (-2) (-2), []) ∧ readOf [0x7F#8] = .inl (.diff 1 1 1, []) ∧
      readOf [0x80#8, 0x00#8] = .inl (.luma (-32) (-8) (-8), []) ∧ readOf [0xBF#8, 0xFF#8] = .inl (.luma 31 7 7, []) ∧
      readOf [0xC0#8] = .inl (.run 1, []) ∧ readOf [0xFD#8] = .inl (.run 62, []) := by decide
/-- The operands of the completion clauses of DIFF, LUMA and RUN at both ends of their ranges. -/
theorem witness_opcode_operand_ranges :
    (Instr.diff (-2) 1 (-2)).wellFormed = true ∧ (Instr.diff 1 (-2) 1).wellFormed = true ∧
      (Instr.luma (-32) (-8) 7).wellFormed = true ∧ (Instr.luma 31 7 (-8)).wellFormed = true ∧
      (1 ≤ 1 ∧ 1 ≤ 62) ∧ (1 ≤ 62 ∧ 62 ≤ 62) := by decide
theorem witness_StepRunsTheDecodedOpcode :
    (Instr.luma 8 2 (-3)).wellFormed = true ∧ nextAgent (streamOf [0xA8#8, 0xA5#8]) = .dec ∧
      (streamOf [0xA8#8, 0xA5#8]).dec.phase = .stream ∧
      (streamOf [0xA8#8, 0xA5#8]).dec.offset + 8 < inputLength (streamOf [0xA8#8, 0xA5#8]) ∧
      ∀ k (h : k < (encode (.luma 8 2 (-3))).length),
        readIn (streamOf [0xA8#8, 0xA5#8]) ((streamOf [0xA8#8, 0xA5#8]).dec.offset + k) =
          (encode (.luma 8 2 (-3)))[k] := by decide
/-- A turn of each agent by the schedule and by its being empty, and the host with and without an action pending. -/
theorem witness_StepIsOneTurnOfTheNextAgent :
    bothBusy.sched = .enc :: [] ∧ nextAgent bothBusy = .enc ∧ nextAgent (decStart placed) = .dec ∧
      (decStart placed).sched = [] ∧ nextAgent { placed with pending := [.powerOn] } = .host ∧
      nextAgent placed = .host ∧ placed.pending = [] := by decide
/-- Exactly 8 bytes remain. -/
theorem witness_LoopStopsEightBytesBeforeTheEnd :
    (streamOf []).dec.phase = .stream ∧ inputLength (streamOf []) = (streamOf []).dec.offset + 8 := by decide
/-- A header error and a marker error. -/
theorem witness_ErrorEntryRecordsItsCauseAndNothingElse :
    (nextOf (decTurn (headerOf (header11.take 13)))).map (fun t => t.dec.phase) = some .doneErr ∧
      (headerOf (header11.take 13)).dec.phase ≠ .doneErr ∧
      (nextOf (decTurn (markerAt 14 21 marker))).map (fun t => t.dec.phase) = some .doneErr ∧
      (markerAt 14 21 marker).dec.phase ≠ .doneErr := by decide
/-- An opcode that overlaps the marker (R194): an RGBA at N - 9. -/
theorem witness_OpcodeStepsRaiseNoError :
    (streamOf [0xFF#8]).dec.phase = .stream ∧
      (streamOf [0xFF#8]).dec.offset + 9 = inputLength (streamOf [0xFF#8]) := by decide
theorem witness_IndexOfAForeignSlotEvictsAnother :
    pixelHash (cacheRead foreignSlot.dec.cache 5) ≠ 5 ∧ nextOf (exec (.index 5) foreignSlot) ≠ none := by decide
theorem witness_EncodeHeaderStepWritesTheHeader :
    (encodeOf []).enc.phase = .header ∧ (encodeOf []).enc.count = 0#32 ∧ (encodeOf [opaqueBlack]).enc.count ≠ 0#32 := by decide
/-- A run that reaches the cap and one that does not. -/
theorem witness_EqualPixelExtendsTheRun :
    ∀ run ∈ [61, 60], (pixelAfter opaqueBlack run opaqueBlack).enc.phase = .pixels ∧
      (pixelAfter opaqueBlack run opaqueBlack).enc.pos < pixelCount (pixelAfter opaqueBlack run opaqueBlack) ∧
      readPin (pixelAfter opaqueBlack run opaqueBlack) 1 = opaqueBlack := by decide
theorem witness_CachedPixelIsWrittenAsIndex :
    let s := pixelAfter opaqueBlack 61 transparentBlack
    s.enc.phase = .pixels ∧ s.enc.pos < pixelCount s ∧ readPin s s.enc.pos ≠ s.enc.prev ∧
      cacheRead s.enc.cache (pixelHash (readPin s s.enc.pos)) = readPin s s.enc.pos := by decide
/-- A miss for each of RGBA, DIFF at its bounds, LUMA at its bounds, and RGB. -/
theorem witness_MissedPixelIsStoredAndWritten :
    ∀ p ∈ [(⟨1, 2, 3, 4⟩ : Pixel), ⟨101, 98, 100, 255⟩, ⟨138, 131, 123, 255⟩, ⟨139, 131, 123, 255⟩],
      let s := pixelAfter ⟨100, 100, 100, 255⟩ 61 p
      s.enc.phase = .pixels ∧ s.enc.pos < pixelCount s ∧ readPin s s.enc.pos ≠ s.enc.prev ∧
        cacheRead s.enc.cache (pixelHash (readPin s s.enc.pos)) ≠ readPin s s.enc.pos := by decide
theorem witness_FinishStepFlushesAndWritesTheMarker : (finishing 61).enc.phase = .finish := by decide
theorem witness_EncodeEndsAfterItsPixelsAndTwoSteps : pixelCount (encodeOf [opaqueBlack]) + 2 = 3 := by decide
theorem witness_PixelStepsReadNoHeaderField : (pixelAfter opaqueBlack 0 transparentBlack).enc.phase ≠ .header := by decide
/-- Each clause for each engine: START refused, START accepted at exactly the room it needs, START while BUSY. -/
theorem witness_StartSeedsAnEngineThatIsNotBusy :
    (1#32).getLsbD 0 = true ∧ (2#32).getLsbD 0 = false ∧ encBusy placed = false ∧ decBusy placed = false ∧
      encPremises { placed with outRoom := 22 } = true ∧ encPremises { placed with outRoom := 21 } = false ∧
      decPremises { placed with poutRoom := 0 } = true ∧
      decPremises { placed with poutRoom := 61, dec := { placed.dec with inLen := 23#32 } } = false ∧
      encBusy (encStart placed) = true ∧ decBusy (decStart placed) = true := by decide
theorem witness_ConfigurationWritesAreIgnoredWhileBusy :
    encBusy (encStart placed) = true ∧ decBusy (decStart placed) = true ∧ encBusy placed = false ∧
      decBusy placed = false := by decide
/-- Also a read of DEC_FORMAT at DONE_ERR, whose tags are free. -/
theorem witness_FormatIsWriteAnyReadLegal :
    encBusy placed = false ∧
      ∃ t w, hostAct (.readReg 0x34 4) { placed with dec := { placed.dec with phase := .doneErr } } = .next t ∧
        t.replies = .word w :: [] := ⟨by decide, _, _, rfl, rfl⟩
theorem witness_ProgressRegistersShowTheEngines :
    placed.enc.outLen < 2 ^ 32 ∧ placed.enc.pos < 2 ^ 32 ∧ placed.dec.pixCount < 2 ^ 32 ∧
      placed.dec.offset < 2 ^ 32 ∧ placed.dec.errOff < 2 ^ 32 := by decide
/-- The last register, and the first offset, boundary and width beyond. -/
theorem witness_OnlyAlignedWordsBelow0x40HoldRegisters :
    accessedReg 0x3C 4 = some .decOffset ∧ accessedReg 0x40 4 = none ∧ accessedReg 0x3D 4 = none ∧
      accessedReg 0x3C 2 = none := by decide
theorem witness_HostWritesRaceOnlyWithABusyEngine :
    decBusy (decStart placed) = true ∧ encBusy (encStart placed) = true ∧ decBusy placed = false ∧
      encBusy placed = false := by decide
theorem witness_ReadsReturnWhatIsThereAndChangeNothing :
    accessedReg 0x24 4 = some .decStatus ∧ regView .decStatus placed = some 0#32 ∧ encBusy placed = false ∧
      decBusy placed = false ∧ placed.dec.phase ≠ .doneErr ∧ encBusy bothBusy = true ∧ decBusy bothBusy = true ∧
      (0x24 : Nat) ∉ [0x2C, 0x30, 0x34, 0x38] ∧
      { placed with dec := { placed.dec with phase := .doneErr } }.dec.phase = .doneErr := by decide
/-- A decode at DONE_OK and an encode at DONE with something to show, and both before their end. -/
theorem witness_FinishedInvocationShowsItsResult :
    let d := { placed with
      pout := [(0, opaqueBlack)], dec := { placed.dec with phase := .doneOk, pixCount := 1, width := 3#32 } }
    let e := { placed with outBuf := [(0, 7#8)], enc := { placed.enc with phase := .done, outLen := 1 } }
    decObservation d = some (.ok [opaqueBlack] 3#32 0#32 .rgb .srgb) ∧ encObservation e = some [7#8] ∧
      decObservation placed = none ∧ encObservation placed = none := by decide
/-- Two states that failed alike, with different progress. -/
theorem witness_FailedDecodeShowsOnlyItsError :
    let s := { placed with dec := { placed.dec with phase := .doneErr, err := .paddingMismatch } }
    let t := { placed with dec := { placed.dec with phase := .doneErr, err := .paddingMismatch, pixCount := 3 } }
    s.dec.phase = .doneErr ∧ t.dec.phase = .doneErr ∧ s ≠ t := by decide

theorem seeded_directMapped : directMapped seedCache := by
  unfold directMapped; decide

theorem witness_Inv : Inv bothBusy ∧ encBusy bothBusy = true ∧ decBusy bothBusy = true ∧ nextOf (step bothBusy) ≠ none := by
  refine ⟨⟨?_, ?_, ?_⟩, by decide, by decide, by decide⟩
  · exact {
      run_le := by decide
      mapped := fun _ => seeded_directMapped
      fits := by decide
      header := by decide
      pixels := by decide
      finish := by decide
      stream := by decide
      done := by decide
      narrow := by decide }
  · exact {
      mapped := fun _ => seeded_directMapped
      fits := by decide
      header := by decide
      stream := by decide
      marker := by decide
      pixels := by decide
      total := by decide
      errPhase := by decide
      errKind := by decide
      errOffset := by decide
      narrow := by decide }
  · unfold MemInv; decide

/-- The invariant away from DONE_ERR. -/
theorem witness_StatusShowsTheStateAndTheError : Inv bothBusy ∧ bothBusy.dec.phase ≠ .doneErr :=
  ⟨witness_Inv.1, by decide⟩

theorem witness_EnginesShareNothing_and_commute : nextOf (decTurn (streamOf [0xC1#8])) ≠ none := by decide

/-- Two different machines that are alike: one has other values where R48 leaves them unspecified. -/
theorem witness_UnspecifiedPowerOnStateIsNeverObserved :
    let t := { placed with enc := { placed.enc with run := 5, prev := opaqueBlack } }
    alike placed t ∧ placed ≠ t := by
  refine ⟨⟨⟨by decide, by decide⟩, ⟨by decide, by decide⟩, by decide⟩, by decide⟩

/-- An idle engine with its START pending, and with a power-on reset pending. -/
theorem witness_OnlyStartOrPowerOnMovesAnIdleEngine :
    ∀ a ∈ [HostAction.writeReg 0x20 4 1#32, .writeReg 0x00 4 1#32, .powerOn, .writeReg 0x28 4 7#32],
      nextOf (step { placed with pending := [a] }) ≠ none ∧ decBusy { placed with pending := [a] } = false ∧
        encBusy { placed with pending := [a] } = false := by decide

/-- A host write to a BUSY engine's input stops the machine. -/
theorem witness_EnginesNeverStopTheMachine :
    stops (step { decStart placed with sched := [.host], pending := [.writeIn 0 1#8] }) := trivial

/-- Two instances that both step, and one that stops with a fault and one with a refusal. -/
theorem witness_InstancesShareNothing :
    (∃ q r, platformStep 0 [streamOf [0xC1#8], bothBusy] = .next q ∧
      platformStep 1 [streamOf [0xC1#8], bothBusy] = .next r) ∧ (1 : Nat) ≠ 0 ∧
      (∃ t, step bothBusy = .next t) ∧
      step { bothBusy with sched := [.host], pending := [.writeIn 0 1#8] } = .fault .bufferRace ∧
      step { placed with pending := [.readReg 0x40 4] } = .refused .badRegisterAccess :=
  ⟨⟨_, _, rfl, rfl⟩, by decide, ⟨_, rfl⟩, rfl, rfl⟩

/-- One pixel, encoded. -/
def frameOfOne : State := encRun (pixelCount (encodeOf [⟨1, 0, 0, 255⟩]) + 2) (encStart (encodeOf [⟨1, 0, 0, 255⟩]))

/-- A decode of that frame. -/
def decodeOfOne : State :=
  { placed with inBuf := frameOfOne.outBuf, dec := { placed.dec with inLen := BitVec.ofNat 32 frameOfOne.enc.outLen } }

theorem witness_DecodeOfAnEncodedFrameGivesThePixelsBack :
    inputLength decodeOfOne = frameOfOne.enc.outLen ∧
      ∀ a, a < inputLength decodeOfOne → readIn decodeOfOne a = readOut frameOfOne a := by decide
/-- In STREAM after the header step, and after the opcode step. -/
theorem witness_CachesEvolveInLockstep :
    (nextOf (decRun 1 (decStart decodeOfOne))).map (fun u => (u.dec.phase, u.dec.pixCount)) = some (.stream, 0) ∧
      (nextOf (decRun 2 (decStart decodeOfOne))).map (fun u => (u.dec.phase, u.dec.pixCount)) = some (.stream, 1) := by decide

end Sys2Proof.Tests
end

section
/-! SUPPORT. The host's register port (R35 to R45): one rule per access and per register word, and the statements about
the register map settled from them. -/
namespace Sys2Proof.Machine

/-! The words the registers show -/

/-- A STATUS word as a number, for the codes its two fields have room for (R37). -/
theorem statusWord_toNat : ∀ state < 4, ∀ err < 8, (statusWord state err).toNat = state + 16 * err := by decide

theorem decStateCode_lt (p : DecPhase) : decStateCode p < 4 := by cases p <;> decide

theorem errCode_lt (e : DecErr) : errCode e < 8 := by cases e <;> decide

/-- A FORMAT word holds the code of each tag in its own field and nothing else (R39). -/
theorem formatWord_eq_ofNat (ch : ChannelTag) (cs : ColorTag) :
    formatWord ch cs = BitVec.ofNat 32 ((channelCode ch).toNat + 4 * (colorCode cs).toNat) := by
  cases ch <;> cases cs <;> decide

/-- Both fields of a FORMAT word hold legal codes, and its reserved bits are 0 (R39). -/
theorem formatWord_legal (ch : ChannelTag) (cs : ColorTag) :
    (formatWord ch cs).toNat % 4 ≤ 2 ∧ (formatWord ch cs).toNat / 4 % 4 ≤ 2 ∧ (formatWord ch cs).toNat / 16 = 0 := by
  cases ch <;> cases cs <;> decide

/-- The tag a CHANNELS code stores, the code read as a number (R39). -/
theorem channelOfCode_eq (c : BitVec 2) :
    channelOfCode c = if c.toNat = 0 then .rgb else if c.toNat = 1 then .rgba else .unknown := by
  simp only [channelOfCode, ← BitVec.toNat_inj]; rfl

/-- The tag a COLORSPACE code stores, the code read as a number (R39). -/
theorem colorOfCode_eq (c : BitVec 2) :
    colorOfCode c = if c.toNat = 0 then .srgb else if c.toNat = 1 then .linear else .unknown := by
  simp only [colorOfCode, ← BitVec.toNat_inj]; rfl

/-- A count that fits COUNT_W bits is shown as it is (R7). -/
theorem countWord_of_lt {n : Nat} (h : n < 2 ^ Config.countW) : countWord n = some (BitVec.ofNat 32 n) := if_pos h

/-! Accesses -/

theorem hostAct_readReg {offset size : Nat} {r : HostReg} (h : accessedReg offset size = some r) (s : State) :
    hostAct (.readReg offset size) s = hostReadReg r s := by
  simp only [hostAct, h]

theorem hostAct_writeReg {offset size : Nat} {r : HostReg} (h : accessedReg offset size = some r) (v : Word)
    (s : State) : hostAct (.writeReg offset size v) s = hostWriteReg r v s := by
  simp only [hostAct, h]

/-- Everything a register read that completes can be: a free word where the view is no result, and else the view. -/
theorem hostReadReg_cases {r : HostReg} {s t : State} (h : hostReadReg r s = .next t) :
    (noResultAtError r = true ∧ s.dec.phase = .doneErr ∧ t = replyWith (.word (freeView r s.draws)) (drawn s)) ∨
      (¬ (noResultAtError r = true ∧ s.dec.phase = .doneErr) ∧
        ∃ w, regView r s = some w ∧ t = replyWith (.word w) s) := by
  unfold hostReadReg at h
  split at h
  next hfree =>
    simp only [Bool.and_eq_true, decide_eq_true_eq] at hfree
    cases h
    exact .inl ⟨hfree.1, hfree.2, rfl⟩
  next hview =>
    simp only [Bool.and_eq_true, decide_eq_true_eq] at hview
    split at h
    next w hw => cases h; exact .inr ⟨hview, w, hw, rfl⟩
    next => cases h

/-- A read of DEC_FORMAT answers a FORMAT word, also where its tags are free (R39, log 7). -/
theorem hostReadReg_decFormat {s t : State} (h : hostReadReg .decFormat s = .next t) :
    ∃ ch cs, t.replies = .word (formatWord ch cs) :: s.replies := by
  obtain ⟨-, -, rfl⟩ | ⟨-, w, hw, rfl⟩ := hostReadReg_cases h
  · exact ⟨Config.freeChannels s.draws, Config.freeColorspace s.draws, rfl⟩
  · cases hw
    exact ⟨s.dec.channels, s.dec.colorspace, rfl⟩

theorem configureEnc_of_busy {s : State} (h : encBusy s = true) (e : EncEngine) : configureEnc e s = .next s := if_pos h

theorem configureEnc_of_not_busy {s : State} (h : encBusy s = false) (e : EncEngine) :
    configureEnc e s = .next { s with enc := e } := by
  simp [configureEnc, h]

theorem configureDec_of_busy {s : State} (h : decBusy s = true) (d : DecEngine) : configureDec d s = .next s := if_pos h

theorem configureDec_of_not_busy {s : State} (h : decBusy s = false) (d : DecEngine) :
    configureDec d s = .next { s with dec := d } := by
  simp [configureDec, h]

theorem hostAct_write_encWidth (v : Word) (s : State) :
    hostAct (.writeReg 0x08 4 v) s = configureEnc { s.enc with width := v } s :=
  hostAct_writeReg (r := .encWidth) rfl v s

theorem hostAct_write_encHeight (v : Word) (s : State) :
    hostAct (.writeReg 0x0C 4 v) s = configureEnc { s.enc with height := v } s :=
  hostAct_writeReg (r := .encHeight) rfl v s

/-- A write of ENC_FORMAT, the two codes read as numbers (R39). -/
theorem hostAct_write_encFormat (v : Word) (s : State) :
    hostAct (.writeReg 0x10 4 v) s = configureEnc { s.enc with
      channels := if v.toNat % 4 = 0 then .rgb else if v.toNat % 4 = 1 then .rgba else .unknown
      colorspace := if v.toNat / 4 % 4 = 0 then .srgb else if v.toNat / 4 % 4 = 1 then .linear else .unknown } s := by
  have hch : (v.extractLsb' 0 2).toNat = v.toNat % 4 := BitVec.extractLsb'_toNat ..
  have hcs : (v.extractLsb' 2 2).toNat = v.toNat / 4 % 4 := by
    rw [BitVec.extractLsb'_toNat, Nat.shiftRight_eq_div_pow]
  rw [hostAct_writeReg (r := .encFormat) rfl, hostWriteReg, channelOfCode_eq, colorOfCode_eq, hch, hcs]

theorem hostAct_write_encCount (v : Word) (s : State) :
    hostAct (.writeReg 0x14 4 v) s = configureEnc { s.enc with count := v } s :=
  hostAct_writeReg (r := .encCount) rfl v s

theorem hostAct_write_decInLen (v : Word) (s : State) :
    hostAct (.writeReg 0x28 4 v) s = configureDec { s.dec with inLen := v } s :=
  hostAct_writeReg (r := .decInLen) rfl v s

/-- Away from DONE_ERR the invariant allows no error (R33, R37). -/
theorem DecInv.err_eq_none {s : State} (h : DecInv s) (hp : s.dec.phase ≠ .doneErr) : s.dec.err = .none :=
  Decidable.of_not_not fun he => hp (h.errPhase.mp he)

/-! The statements -/

/-- Settles O40: a write stores the tags of its two codes, and every read of DEC_FORMAT answers a FORMAT word. -/
theorem formatIsWriteAnyReadLegal : Obligations.FormatIsWriteAnyReadLegal := by
  refine ⟨fun s v hidle => ?_, fun s t rest w hread hreply => ?_, fun s => ⟨?_, ?_⟩⟩
  · rw [hostAct_write_encFormat, configureEnc_of_not_busy hidle]
  · rw [hostAct_readReg (r := .decFormat) rfl] at hread
    obtain ⟨ch, cs, hword⟩ := hostReadReg_decFormat hread
    obtain rfl : formatWord ch cs = w := by simpa [hword] using congrArg List.head? hreply
    exact formatWord_legal ch cs
  · simp only [regView, formatWord_eq_ofNat]
    cases s.enc.channels <;> cases s.enc.colorspace <;> rfl
  · simp only [regView, formatWord_eq_ofNat]
    cases s.dec.channels <;> cases s.dec.colorspace <;> rfl

/-- Settles O41: the STATUS words field by field, and ERR from the invariant's clause on the error's phase. -/
theorem statusShowsTheStateAndTheError : Obligations.StatusShowsTheStateAndTheError := by
  intro s
  have hfields := statusWord_toNat _ (decStateCode_lt s.dec.phase) _ (errCode_lt s.dec.err)
  refine ⟨?_, statusWord (decStateCode s.dec.phase) (errCode s.dec.err), rfl, ?_, fun hinv hp => ?_⟩
  · simp only [regView]
    cases s.enc.phase <;> rfl
  · rw [hfields]
    cases s.dec.phase <;> cases s.dec.err <;> rfl
  · have hstate := decStateCode_lt s.dec.phase
    rw [hfields, hinv.dec.err_eq_none hp, errCode]
    omega

/-- Settles O39: each of the five writes is an update that a BUSY engine ignores. -/
theorem configurationWritesAreIgnoredWhileBusy : Obligations.ConfigurationWritesAreIgnoredWhileBusy := by
  intro s v
  refine ⟨fun hbusy o ho => ?_, fun hbusy => ?_, fun hidle => ⟨?_, ?_, ?_⟩, fun hidle => ?_, rfl, rfl, rfl, rfl⟩
  · simp only [List.mem_cons, List.not_mem_nil, or_false] at ho
    obtain rfl | rfl | rfl | rfl := ho
    · rw [hostAct_write_encWidth, configureEnc_of_busy hbusy]
    · rw [hostAct_write_encHeight, configureEnc_of_busy hbusy]
    · rw [hostAct_write_encFormat, configureEnc_of_busy hbusy]
    · rw [hostAct_write_encCount, configureEnc_of_busy hbusy]
  · rw [hostAct_write_decInLen, configureDec_of_busy hbusy]
  · rw [hostAct_write_encWidth, configureEnc_of_not_busy hidle]
  · rw [hostAct_write_encHeight, configureEnc_of_not_busy hidle]
  · rw [hostAct_write_encCount, configureEnc_of_not_busy hidle]
  · rw [hostAct_write_decInLen, configureDec_of_not_busy hidle]

/-- Settles O42: each count that fits is shown as it is, and so are the header registers. -/
theorem progressRegistersShowTheEngines : Obligations.ProgressRegistersShowTheEngines := by
  intro s houtLen hpos hpixCount hoffset herrOff
  have hshown : offsetShown s < 2 ^ Config.countW := by
    unfold offsetShown
    split
    · exact herrOff
    · exact hoffset
  exact ⟨countWord_of_lt houtLen, countWord_of_lt hpos, countWord_of_lt hpixCount, rfl, rfl, countWord_of_lt hshown⟩

end Sys2Proof.Machine
end

section
/-! SUPPORT. The byte-level decoder (R70 to R80): one equation per kind of opcode, and the statement that no byte is
reserved or illegal settled from them. -/
namespace Sys2Proof

theorem decode_index {b0 : Byte} (h : opKind b0 = some .index) (t : List Byte) :
    decode (b0 :: t) = .ok (decodeIndex b0, t) := by simp only [decode, h]

theorem decode_diff {b0 : Byte} (h : opKind b0 = some .diff) (t : List Byte) :
    decode (b0 :: t) = .ok (decodeDiff b0, t) := by simp only [decode, h]

theorem decode_luma {b0 : Byte} (h : opKind b0 = some .luma) (b1 : Byte) (t : List Byte) :
    decode (b0 :: b1 :: t) = .ok (decodeLuma b0 b1, t) := by simp only [decode, h]

theorem decode_run {b0 : Byte} (h : opKind b0 = some .run) (t : List Byte) :
    decode (b0 :: t) = .ok (decodeRun b0, t) := by simp only [decode, h]

theorem decode_rgb {b0 : Byte} (h : opKind b0 = some .rgb) (r g b : Byte) (t : List Byte) :
    decode (b0 :: r :: g :: b :: t) = .ok (.rgb r g b, t) := by simp only [decode, h]

theorem decode_rgba {b0 : Byte} (h : opKind b0 = some .rgba) (r g b a : Byte) (t : List Byte) :
    decode (b0 :: r :: g :: b :: a :: t) = .ok (.rgba r g b a, t) := by simp only [decode, h]

/-- Settles O5: every first byte has a kind, the kind gives the length, and the bytes after it are taken as they are. -/
theorem everyByteSequenceDecodesByItsFirstByte : Obligations.EveryByteSequenceDecodesByItsFirstByte := by
  intro b0 t hlen
  obtain ⟨kind, hkind⟩ := Option.ne_none_iff_exists'.mp (opKind_ne_none b0)
  rw [opLen_of_opKind hkind] at hlen ⊢
  cases kind with
  | index => exact ⟨_, decode_index hkind t, congrArg List.length (encode_decodeIndex hkind).2⟩
  | diff => exact ⟨_, decode_diff hkind t, congrArg List.length (encode_decodeDiff hkind).2⟩
  | run => exact ⟨_, decode_run hkind t, congrArg List.length (encode_decodeRun hkind).2⟩
  | luma =>
    match t, hlen with
    | b1 :: t, _ => exact ⟨_, decode_luma hkind b1 t, congrArg List.length (encode_decodeLuma b1 hkind).2⟩
  | rgb =>
    match t, hlen with
    | r :: g :: b :: t, _ => exact ⟨_, decode_rgb hkind r g b t, rfl⟩
  | rgba =>
    match t, hlen with
    | r :: g :: b :: a :: t, _ => exact ⟨_, decode_rgba hkind r g b a t, rfl⟩

end Sys2Proof
end

section
/-! SUPPORT. The arithmetic unit (R105 to R108): the value of the wrapping addition and what each test of the selector
holds of, and the two statements settled from them. -/
namespace Sys2Proof.Machine

/-- The wrapping addition as a number, with the non-negative remainder (R106). -/
theorem wrapAdd_toNat (c : Byte) (d : Int) : ((wrapAdd c d).toNat : Int) = ((c.toNat : Int) + d) % 256 := by
  rw [wrapAdd, BitVec.toNat_ofInt]
  exact Int.toNat_of_nonneg (Int.emod_nonneg _ (by decide))

theorem alphaEq_iff (p q : Pixel) : alphaEq p q = true ↔ p.a = q.a := beq_iff_eq

theorem fitsDiff_iff (dr dg db : Int) : fitsDiff dr dg db = true ↔
    (-2 ≤ dr ∧ dr ≤ 1) ∧ (-2 ≤ dg ∧ dg ≤ 1) ∧ (-2 ≤ db ∧ db ≤ 1) := by
  simp only [fitsDiff, Bool.and_eq_true, inRange_iff, and_assoc]

theorem fitsLuma_iff (dg drg dbg : Int) : fitsLuma dg drg dbg = true ↔
    (-32 ≤ dg ∧ dg ≤ 31) ∧ (-8 ≤ drg ∧ drg ≤ 7) ∧ (-8 ≤ dbg ∧ dbg ≤ 7) := by
  simp only [fitsLuma, Bool.and_eq_true, inRange_iff, and_assoc]

/-- Settles O8: the byte of an integer is its non-negative remainder modulo 256. -/
theorem wrapAddIsAdditionModulo256 : Obligations.WrapAddIsAdditionModulo256 := wrapAdd_toNat

/-- Settles O11: each test is the conjunction of its channels' or deltas' comparisons. -/
theorem selectorTestsAreTheStatedComparisons : Obligations.SelectorTestsAreTheStatedComparisons :=
  ⟨fun p q => ⟨pixelEq_iff p q, alphaEq_iff p q⟩, fitsDiff_iff, fitsLuma_iff⟩

end Sys2Proof.Machine
end

section
/-! SUPPORT. The frame header (R131 to R137): the two directions of the big-endian layout as numbers, the three outcomes
of the parser, and the two statements settled from them. -/
namespace Sys2Proof.Machine

/-- The bytes of a word by value, most significant first (R55). -/
theorem be32Bytes_eq_ofNat (w : Word) :
    be32Bytes w = [BitVec.ofNat 8 (w.toNat / 2 ^ 24), BitVec.ofNat 8 (w.toNat / 2 ^ 16),
      BitVec.ofNat 8 (w.toNat / 2 ^ 8), BitVec.ofNat 8 w.toNat] := by
  simp only [be32Bytes, BitVec.extractLsb', Nat.shiftRight_eq_div_pow, Nat.pow_zero, Nat.div_one]

/-- Reading big-endian shifts the word so far by one byte and takes in the next (R55). -/
theorem be32_eq_shifts (b0 b1 b2 b3 : Byte) :
    be32 b0 b1 b2 b3 =
      ((b0.setWidth 32 <<< 8 ||| b1.setWidth 32) <<< 8 ||| b2.setWidth 32) <<< 8 ||| b3.setWidth 32 := by
  simp only [be32, BitVec.shiftLeft_or_distrib, ← BitVec.shiftLeft_add]

/-- Taking in one byte multiplies the word so far by 256, when its top byte is free. -/
theorem toNat_shiftLeft_or_byte {x : Word} (b : Byte) (h : x.toNat < 2 ^ 24) :
    (x <<< 8 ||| b.setWidth 32).toNat = x.toNat * 2 ^ 8 + b.toNat := by
  have hshift : (x <<< 8).toNat = x.toNat <<< 8 := by
    rw [BitVec.toNat_shiftLeft, Nat.mod_eq_of_lt (by omega)]
  rw [BitVec.toNat_or, hshift, BitVec.toNat_setWidth_of_le (by decide), ← Nat.shiftLeft_add_eq_or_of_lt b.isLt,
    Nat.shiftLeft_eq]

/-- The value of a word read big-endian (R55, R137). -/
theorem be32_toNat (b0 b1 b2 b3 : Byte) :
    (be32 b0 b1 b2 b3).toNat = b0.toNat * 2 ^ 24 + b1.toNat * 2 ^ 16 + b2.toNat * 2 ^ 8 + b3.toNat := by
  have h0 : (b0.setWidth 32).toNat = b0.toNat := BitVec.toNat_setWidth_of_le (by decide)
  have h1 := toNat_shiftLeft_or_byte b1 (x := b0.setWidth 32) (by omega)
  have h2 := toNat_shiftLeft_or_byte b2 (x := b0.setWidth 32 <<< 8 ||| b1.setWidth 32) (by omega)
  rw [be32_eq_shifts, toNat_shiftLeft_or_byte b3 (by omega), h2, h1, h0]
  omega

/-- Four bytes are the magic exactly when each is its letter (R131, R135). -/
theorem eq_magic_iff (b0 b1 b2 b3 : Byte) :
    [b0, b1, b2, b3] = magic ↔ b0 = 0x71#8 ∧ b1 = 0x6F#8 ∧ b2 = 0x69#8 ∧ b3 = 0x66#8 := by
  simp [magic]

theorem parseHeader_of_short (rd : Nat → Byte) {n : Nat} (h : n < 14) : parseHeader rd n = .error .headerTooShort :=
  if_pos h

theorem parseHeader_of_no_magic {rd : Nat → Byte} {n : Nat} (hlen : 14 ≤ n) (h : [rd 0, rd 1, rd 2, rd 3] ≠ magic) :
    parseHeader rd n = .error .invalidMagic := by
  rw [parseHeader, if_neg (by omega), if_pos h]

theorem parseHeader_of_magic {rd : Nat → Byte} {n : Nat} (hlen : 14 ≤ n) (h : [rd 0, rd 1, rd 2, rd 3] = magic) :
    parseHeader rd n = .ok ⟨be32 (rd 4) (rd 5) (rd 6) (rd 7), be32 (rd 8) (rd 9) (rd 10) (rd 11), chTag (rd 12),
      csTag (rd 13)⟩ := by
  rw [parseHeader, if_neg (by omega), if_neg (not_not_intro h)]

theorem decHeaderStep_of_error {s : State} {e : DecErr} (h : parseHeader (readIn s) (inputLength s) = .error e) :
    decHeaderStep s = raiseError e 0 s := by
  rw [decHeaderStep, h]

theorem decHeaderStep_of_ok {s : State} {f : HeaderFields} (h : parseHeader (readIn s) (inputLength s) = .ok f) :
    decHeaderStep s = { s with dec := { s.dec with
      width := f.width, height := f.height, channels := f.channels, colorspace := f.colorspace,
      offset := 14, phase := .stream } } := by
  rw [decHeaderStep, h]

/-- Settles O13: the two dimensions by the values of their bytes, the other six bytes as the writer has them. -/
theorem headerWriterGivesTheFourteenBytes : Obligations.HeaderWriterGivesTheFourteenBytes := by
  intro w h ch cs
  rw [headerBytes, be32Bytes_eq_ofNat, be32Bytes_eq_ofNat]
  rfl

/-- Settles O16: the step follows the parser's outcome, which the length decides first and then the magic. -/
theorem headerStepParsesOrRaises : Obligations.HeaderStepParsesOrRaises := by
  intro s hphase
  rw [decTurn_of_header hphase]
  refine ⟨fun hshort => ?_, fun hlen hbad => ?_, fun hlen hgood => ⟨_, _, be32_toNat .., be32_toNat .., ?_⟩⟩
  · rw [decHeaderStep_of_error (parseHeader_of_short _ hshort)]
    rfl
  · rw [← eq_magic_iff] at hbad
    rw [decHeaderStep_of_error (parseHeader_of_no_magic hlen hbad)]
    rfl
  · rw [← eq_magic_iff] at hgood
    rw [decHeaderStep_of_ok (parseHeader_of_magic hlen hgood)]
    rfl

end Sys2Proof.Machine
end

section
/-! SUPPORT. The encode engine's turn (R163 to R173): what one emission does to OUT and to the rest of the machine, the
bytes of the opcode the selector chooses, and the statements about the pixel step and the finish step settled from them. -/
namespace Sys2Proof.Machine

/-! The bytes of an opcode by value -/

/-- The byte of INDEX is the slot number: its tag bits are 0 (R71). -/
theorem encode_index (i : Fin 64) : encode (.index i) = [BitVec.ofNat 8 i.val] := by
  rw [encode, BitVec.zero_or]

/-- DIFF's byte as a sum: within their ranges the three fields do not overlap (R72, R77). -/
theorem encode_diff_of_fits {dr dg db : Int} (h : fitsDiff dr dg db = true) :
    encode (.diff dr dg db) = [BitVec.ofInt 8 (0x40 + (dr + 2) * 16 + (dg + 2) * 4 + (db + 2))] := by
  simp only [fitsDiff, Bool.and_eq_true] at h
  obtain ⟨⟨hr, hg⟩, hb⟩ := h
  obtain ⟨x, rfl⟩ := Laws.exists_field (n := 4) (bias := 2) hr rfl rfl
  obtain ⟨y, rfl⟩ := Laws.exists_field (n := 4) (bias := 2) hg rfl rfl
  obtain ⟨z, rfl⟩ := Laws.exists_field (n := 4) (bias := 2) hb rfl rfl
  clear hr hg hb
  revert x y z
  decide

/-- LUMA's bytes as sums: within their ranges the tag and the fields do not overlap (R73, R77). -/
theorem encode_luma_of_fits {dg drg dbg : Int} (h : fitsLuma dg drg dbg = true) :
    encode (.luma dg drg dbg) =
      [BitVec.ofInt 8 (0x80 + (dg + 32)), BitVec.ofInt 8 ((drg + 8) * 16 + (dbg + 8))] := by
  simp only [fitsLuma, Bool.and_eq_true] at h
  obtain ⟨⟨hg, hr⟩, hb⟩ := h
  obtain ⟨x, rfl⟩ := Laws.exists_field (n := 64) (bias := 32) hg rfl rfl
  obtain ⟨y, rfl⟩ := Laws.exists_field (n := 16) (bias := 8) hr rfl rfl
  obtain ⟨z, rfl⟩ := Laws.exists_field (n := 16) (bias := 8) hb rfl rfl
  have green : ∀ x : Fin 64, 0x80#8 ||| biased ((x.val : Int) - (32 : Nat)) 32 =
      BitVec.ofInt 8 (0x80 + ((x.val : Int) - (32 : Nat) + 32)) := by decide
  have cross : ∀ y z : Fin 16,
      (biased ((y.val : Int) - (8 : Nat)) 8 <<< 4) ||| biased ((z.val : Int) - (8 : Nat)) 8 =
        BitVec.ofInt 8 (((y.val : Int) - (8 : Nat) + 8) * 16 + ((z.val : Int) - (8 : Nat) + 8)) := by decide
  rw [encode, green, cross]

/-- The remainder of R101 takes nothing off the difference of two channels. -/
theorem delta_eq_sub (a b : Byte) : delta a b = (a.toNat : Int) - (b.toNat : Int) := by
  have ha := a.isLt
  have hb := b.isLt
  rw [delta]
  rcases Int.le_total 0 ((a.toNat : Int) - b.toNat) with hnonneg | hnonpos
  · exact Int.tmod_eq_of_lt hnonneg (by omega)
  · rw [← Int.neg_inj, ← Int.neg_tmod]
    exact Int.tmod_eq_of_lt (by omega) (by omega)

/-- The bytes of a pixel that misses the cache, the differences of its channels measured exactly (R167 to R170). -/
theorem encode_selectOpcode (p q : Pixel) :
    encode (selectOpcode p q) =
      (let dr : Int := p.r.toNat - q.r.toNat
       let dg : Int := p.g.toNat - q.g.toNat
       let db : Int := p.b.toNat - q.b.toNat
       if p.a ≠ q.a then [0xFF#8, p.r, p.g, p.b, p.a]
       else if (-2 ≤ dr ∧ dr ≤ 1) ∧ (-2 ≤ dg ∧ dg ≤ 1) ∧ (-2 ≤ db ∧ db ≤ 1) then
         [BitVec.ofInt 8 (0x40 + (dr + 2) * 16 + (dg + 2) * 4 + (db + 2))]
       else if (-32 ≤ dg ∧ dg ≤ 31) ∧ (-8 ≤ dr - dg ∧ dr - dg ≤ 7) ∧ (-8 ≤ db - dg ∧ db - dg ≤ 7) then
         [BitVec.ofInt 8 (0x80 + (dg + 32)), BitVec.ofInt 8 ((dr - dg + 8) * 16 + (db - dg + 8))]
       else [0xFE#8, p.r, p.g, p.b]) := by
  simp only [selectOpcode, delta_eq_sub, crossDelta, ← fitsDiff_iff, ← fitsLuma_iff, alphaEq_iff]
  by_cases halpha : p.a = q.a
  · rw [if_pos halpha, if_neg (not_not_intro halpha)]
    split
    next hdiff => exact encode_diff_of_fits hdiff
    next =>
      split
      next hluma => exact encode_luma_of_fits hluma
      next => rfl
  · rw [if_neg halpha, if_pos halpha]
    rfl

/-! One emission -/

/-- Bytes emitted after an update of the engine that keeps OUTLEN are appended to OUT as it was (R9). -/
theorem bytesAppended_emit (v : List Byte) (s : State) {e : EncEngine} (h : e.outLen = s.enc.outLen) :
    bytesAppended s (emit v { s with enc := e }) v := by
  unfold bytesAppended
  simp only [readOut_emit, h]
  refine ⟨fun k hk => ?_, fun a ha => ?_⟩
  · rw [dif_pos (by omega)]
    simp only [Nat.add_sub_cancel_left]
  · rw [dif_neg (by omega)]
    rfl

/-- A turn that is one emission: its bytes are appended, the engine is the updated one with OUTLEN moved past them, and
nothing but OUT and the engine changes. -/
theorem encTurn_effect_of_emit {s : State} {v : List Byte} {e : EncEngine}
    (hturn : encTurn s = emit v { s with enc := e }) (h : e.outLen = s.enc.outLen) :
    bytesAppended s (encTurn s) v ∧
      encTurn s = { s with
        outBuf := (encTurn s).outBuf
        enc := { e with outLen := s.enc.outLen + v.length } } := by
  rw [hturn]
  refine ⟨bytesAppended_emit v s h, ?_⟩
  rw [← h]
  rfl

/-! The three turns of a pixel and the finish, each as one emission -/

theorem encTurn_of_pixel_left {s : State} (hphase : s.enc.phase = .pixels) (hpos : s.enc.pos < pixelCount s) :
    encTurn s = encPixelStep s := by
  rw [encTurn_of_pixels hphase, if_pos hpos]

/-- R163, R171: the run grows without a byte, and at the cap it is written and cleared. -/
theorem encTurn_of_equal_pixel {s : State} (hphase : s.enc.phase = .pixels) (hpos : s.enc.pos < pixelCount s)
    (heq : readPin s s.enc.pos = s.enc.prev) :
    encTurn s = emit (if s.enc.run = 61 then [0xFD#8] else []) { s with enc := { s.enc with
      run := if s.enc.run = 61 then 0 else s.enc.run + 1
      pos := s.enc.pos + 1
      phase := if s.enc.pos + 1 = pixelCount s then .finish else .pixels } } := by
  rw [encTurn_of_pixel_left hphase hpos, encPixelStep_eq]
  simp only [heq, hphase, if_true]
  split
  · rfl
  · rw [emit_nil]

/-- R164, R165, R171: the flush of the run, then INDEX. -/
theorem encTurn_of_cached_pixel {s : State} (hphase : s.enc.phase = .pixels) (hpos : s.enc.pos < pixelCount s)
    (hne : readPin s s.enc.pos ≠ s.enc.prev)
    (hhit : cacheRead s.enc.cache (pixelHash (readPin s s.enc.pos)) = readPin s s.enc.pos) :
    encTurn s = emit (runBytes s.enc.run ++ [BitVec.ofNat 8 (pixelHash (readPin s s.enc.pos)).val])
      { s with enc := { s.enc with
        run := 0
        prev := readPin s s.enc.pos
        pos := s.enc.pos + 1
        phase := if s.enc.pos + 1 = pixelCount s then .finish else .pixels } } := by
  rw [encTurn_of_pixel_left hphase hpos, encPixelStep_eq]
  simp only [hne, hhit, hphase, if_true, if_false, encode_index]

/-- R164, R166 to R171: the flush of the run, then the selected opcode, the pixel stored at its hash. -/
theorem encTurn_of_missed_pixel {s : State} (hphase : s.enc.phase = .pixels) (hpos : s.enc.pos < pixelCount s)
    (hne : readPin s s.enc.pos ≠ s.enc.prev)
    (hmiss : cacheRead s.enc.cache (pixelHash (readPin s s.enc.pos)) ≠ readPin s s.enc.pos) :
    encTurn s = emit (runBytes s.enc.run ++ encode (selectOpcode (readPin s s.enc.pos) s.enc.prev))
      { s with enc := { s.enc with
        cache := cacheStore s.enc.cache (readPin s s.enc.pos)
        run := 0
        prev := readPin s s.enc.pos
        pos := s.enc.pos + 1
        phase := if s.enc.pos + 1 = pixelCount s then .finish else .pixels } } := by
  rw [encTurn_of_pixel_left hphase hpos, encPixelStep_eq]
  simp only [hne, hmiss, hphase, if_false]

/-! The statements -/

/-- Settles O31: the turn emits the capped run or nothing. -/
theorem equalPixelExtendsTheRun : Obligations.EqualPixelExtendsTheRun := by
  intro s hphase hpos heq
  obtain ⟨hbytes, hframe⟩ := encTurn_effect_of_emit (encTurn_of_equal_pixel hphase hpos heq) rfl
  refine ⟨hbytes, hframe.trans ?_⟩
  rw [apply_ite List.length]
  rfl

/-- Settles O32: the turn emits the flush and the byte of the hash. -/
theorem cachedPixelIsWrittenAsIndex : Obligations.CachedPixelIsWrittenAsIndex := by
  intro s hphase hpos hne hhit
  obtain ⟨hbytes, hframe⟩ := encTurn_effect_of_emit (encTurn_of_cached_pixel hphase hpos hne hhit) rfl
  rw [List.length_append, ← Nat.add_assoc] at hframe
  exact ⟨hbytes, hframe⟩

/-- Settles O33: the turn emits the flush and the bytes of the selected opcode, and its one cache write is the store of
the pixel at its hash. -/
theorem missedPixelIsStoredAndWritten : Obligations.MissedPixelIsStoredAndWritten := by
  intro s hphase hpos hne hmiss p q dr dg db code
  have hcode : encode (selectOpcode p q) = code := encode_selectOpcode p q
  have hturn := encTurn_of_missed_pixel hphase hpos hne hmiss
  rw [hcode] at hturn
  have hcache : (encTurn s).enc.cache = cacheStore s.enc.cache p := by rw [hturn, emit_enc]
  obtain ⟨hbytes, hframe⟩ := encTurn_effect_of_emit hturn rfl
  rw [List.length_append, ← Nat.add_assoc] at hframe
  refine ⟨hbytes, ?_, ?_⟩
  · rw [hcache]
    exact cacheRead_cacheStore s.enc.cache p
  · rw [hcache]
    exact hframe

/-- Settles O34: the turn emits the flush and the marker. -/
theorem finishStepFlushesAndWritesTheMarker : Obligations.FinishStepFlushesAndWritesTheMarker := by
  intro s hphase
  obtain ⟨hbytes, hframe⟩ :=
    encTurn_effect_of_emit ((encTurn_of_finish hphase).trans (encFinishStep_eq s)) rfl
  rw [List.length_append, ← Nat.add_assoc] at hframe
  exact ⟨hbytes, hframe⟩

end Sys2Proof.Machine
end

section
/-! SUPPORT. The six opcodes (R71 to R76, R193 to R201): the fields and the kind of an opcode byte by its value, the
effect of the common tail with and without a cache store, and the statements about the opcodes settled from them. -/
namespace Sys2Proof.Machine

/-! The opcode byte by value -/

/-- `v[hi:lo]` of a byte by division (R8). -/
theorem field_eq_div_mod (b : Byte) (lo len : Nat) : field b lo len = b.toNat / 2 ^ lo % 2 ^ len := by
  rw [field, BitVec.extractLsb'_toNat, Nat.shiftRight_eq_div_pow]

/-- A biased field by division (R77). -/
theorem unbias_eq_div_mod (b : Byte) (lo len bias : Nat) :
    unbias b lo len bias = (b.toNat : Int) / 2 ^ lo % 2 ^ len - bias := by
  rw [unbias, field_eq_div_mod]
  push_cast
  rfl

/-- The upper nibble of a byte needs no reduction. -/
theorem upper_nibble_mod (b : Byte) : (b.toNat : Int) / 16 % 16 = b.toNat / 16 := by
  have := b.isLt
  omega

theorem opKind_index_of_range {b0 : Byte} : b0.toNat ≤ 0x3F → opKind b0 = some .index := by revert b0; decide

theorem opKind_diff_of_range {b0 : Byte} : 0x40 ≤ b0.toNat → b0.toNat ≤ 0x7F → opKind b0 = some .diff := by
  revert b0; decide

theorem opKind_luma_of_range {b0 : Byte} : 0x80 ≤ b0.toNat → b0.toNat ≤ 0xBF → opKind b0 = some .luma := by
  revert b0; decide

theorem opKind_run_of_range {b0 : Byte} : 0xC0 ≤ b0.toNat → b0.toNat ≤ 0xFD → opKind b0 = some .run := by
  revert b0; decide

theorem decodeDiff_eq (b0 : Byte) :
    decodeDiff b0 = .diff (b0.toNat / 16 % 4 - 2) (b0.toNat / 4 % 4 - 2) (b0.toNat % 4 - 2) := by
  simp [decodeDiff, unbias_eq_div_mod]

theorem decodeLuma_eq (b0 b1 : Byte) :
    decodeLuma b0 b1 = .luma (b0.toNat % 64 - 32) (b1.toNat / 16 - 8) (b1.toNat % 16 - 8) := by
  simp [decodeLuma, unbias_eq_div_mod, upper_nibble_mod]

theorem decodeRun_eq (b0 : Byte) : decodeRun b0 = .run (b0.toNat % 64 + 1) := by
  simp [decodeRun, field_eq_div_mod]

/-! The meaning of each opcode, by the common tail -/

theorem exec_index (i : Fin 64) (s : State) : exec (.index i) s =
    .next (completeOpcode (cacheRead s.dec.cache i) 1 1 (decStore (cacheRead s.dec.cache i) s)) := rfl

/-- The pixel of `addDeltas` is R106's wrapping sum channel by channel, with the previous alpha (R199). -/
theorem exec_diff (dr dg db : Int) (s : State) : exec (.diff dr dg db) s =
    .next (completeOpcode (addDeltas s.dec.prev dr dg db) 1 1 (decStore (addDeltas s.dec.prev dr dg db) s)) := rfl

theorem exec_luma (dg drg dbg : Int) (s : State) : exec (.luma dg drg dbg) s =
    .next (completeOpcode (addDeltas s.dec.prev (drg + dg) dg (dbg + dg)) 1 2
      (decStore (addDeltas s.dec.prev (drg + dg) dg (dbg + dg)) s)) := rfl

theorem exec_run (len : Nat) (s : State) : exec (.run len) s = .next (completeOpcode s.dec.prev len 1 s) := rfl

theorem exec_rgb (r g b : Byte) (s : State) : exec (.rgb r g b) s =
    .next (completeOpcode ⟨r, g, b, s.dec.prev.a⟩ 1 4 (decStore ⟨r, g, b, s.dec.prev.a⟩ s)) := rfl

theorem exec_rgba (r g b a : Byte) (s : State) : exec (.rgba r g b a) s =
    .next (completeOpcode ⟨r, g, b, a⟩ 1 5 (decStore ⟨r, g, b, a⟩ s)) := rfl

/-- R195: the common tail appends the pixel, and sets `prev`, PIXCOUNT and the offset, and nothing else. -/
theorem opcodeEffect_completeOpcode (cur : Pixel) (n len : Nat) (s : State) :
    opcodeEffect s (completeOpcode cur n len s) cur n len :=
  ⟨rfl, readPout_completeOpcode cur n len s⟩

/-- R193, R195: with the pixel stored first, the tail has the same effect beside the cache, and the cache is the old one
with the pixel at its hash. -/
theorem completeOpcode_decStore_effect (cur : Pixel) (n len : Nat) (s : State) :
    opcodeEffect s (completeOpcode cur n len (decStore cur s)) cur n len ∧
      storedAtHash s.dec.cache (completeOpcode cur n len (decStore cur s)).dec.cache cur :=
  ⟨⟨rfl, readPout_completeOpcode cur n len (decStore cur s)⟩, cacheRead_cacheStore s.dec.cache cur⟩

/-! The statements -/

/-- Settles O18: the byte is the slot number, and the slot's content goes through the storing tail. -/
theorem indexAppendsTheSlotsPixel : Obligations.IndexAppendsTheSlotsPixel := by
  refine ⟨fun b0 rest hb => ?_, fun i s => ⟨_, exec_index i s, completeOpcode_decStore_effect ..⟩⟩
  have hkind := opKind_index_of_range hb
  have hslot : field b0 0 6 = b0.toNat := by rw [field_eq_div_mod]; omega
  exact ⟨_, hslot, decode_index hkind rest, (encode_decodeIndex hkind).2⟩

/-- Settles O19: the fields by division, and the pixel of the three deltas through the storing tail. -/
theorem diffAddsSmallDeltas : Obligations.DiffAddsSmallDeltas := by
  refine ⟨fun b0 rest hlo hhi => ?_, fun dr dg db s _ =>
    ⟨_, exec_diff dr dg db s, completeOpcode_decStore_effect ..⟩⟩
  rw [decode_diff (opKind_diff_of_range hlo hhi), decodeDiff_eq]

/-- Settles O20: the fields by division, and the pixel of the deltas, green added to the cross deltas, through the
storing tail. -/
theorem lumaAddsTheGreenDeltaToTheCrossDeltas : Obligations.LumaAddsTheGreenDeltaToTheCrossDeltas := by
  refine ⟨fun b0 b1 rest hlo hhi => ?_, fun dg drg dbg s _ =>
    ⟨_, exec_luma dg drg dbg s, completeOpcode_decStore_effect ..⟩⟩
  rw [decode_luma (opKind_luma_of_range hlo hhi), decodeLuma_eq]

/-- Settles O21: the length is the low field plus 1, and the previous pixel goes through the tail without a store. -/
theorem runRepeatsThePreviousPixel : Obligations.RunRepeatsThePreviousPixel := by
  refine ⟨fun b0 rest hlo hhi => ?_, fun len s _ _ => ⟨_, exec_run len s, opcodeEffect_completeOpcode .., rfl⟩⟩
  have hkind := opKind_run_of_range hlo hhi
  rw [← decodeRun_eq]
  exact ⟨decode_run hkind rest, (encode_decodeRun hkind).2⟩

/-- Settles O22: the three bytes and the previous alpha make the pixel of the storing tail. -/
theorem rgbTakesAlphaFromThePreviousPixel : Obligations.RgbTakesAlphaFromThePreviousPixel :=
  ⟨fun r g b rest => ⟨decode_rgb rfl r g b rest, rfl⟩,
    fun r g b s => ⟨_, exec_rgb r g b s, completeOpcode_decStore_effect ..⟩⟩

/-- Settles O23: the four bytes make the pixel of the storing tail. -/
theorem rgbaTakesAllFourChannels : Obligations.RgbaTakesAllFourChannels :=
  ⟨fun r g b a rest => ⟨decode_rgba rfl r g b a rest, rfl⟩,
    fun r g b a s => ⟨_, exec_rgba r g b a s, completeOpcode_decStore_effect ..⟩⟩

end Sys2Proof.Machine
end

section
/-! SUPPORT. Opcode bytes in both directions (R70 to R82): reading back what the encoder wrote, kind by kind, what a decoded
opcode's first byte says of it, and the statements about the byte format and the assembler settled from them. -/
namespace Sys2Proof

/-- A RUN of 1 to 62 keeps clear of the bytes of RGB and RGBA and reads back (R74). -/
theorem decode_encode_run {len : Nat} (hlo : 1 ≤ len) (hhi : len ≤ 62) (rest : List Byte) :
    decode (encode (.run len) ++ rest) = .ok (.run len, rest) := by
  have fields : ∀ x : Fin 62, opKind (0xC0#8 ||| BitVec.ofNat 8 x.val) = some .run ∧
      field (0xC0#8 ||| BitVec.ofNat 8 x.val) 0 6 = x.val := by decide
  obtain ⟨hkind, hfield⟩ := fields ⟨len - 1, by omega⟩
  refine (decode_run hkind rest).trans ?_
  rw [decodeRun, hfield]
  simp only [Nat.sub_add_cancel hlo]

/-- The slot number of INDEX reads back (R71). -/
theorem decode_encode_index (i : Fin 64) (rest : List Byte) :
    decode (encode (.index i) ++ rest) = .ok (.index i, rest) := by
  have fields : ∀ i : Fin 64, opKind (0x00#8 ||| BitVec.ofNat 8 i.val) = some .index ∧
      decodeIndex (0x00#8 ||| BitVec.ofNat 8 i.val) = .index i := by decide
  obtain ⟨hkind, hread⟩ := fields i
  exact (decode_index hkind rest).trans (by rw [hread])

/-- The three deltas of DIFF read back from their biased fields (R72, R77). -/
theorem decode_encode_diff {dr dg db : Int} (hr : inRange (-2) 1 dr = true) (hg : inRange (-2) 1 dg = true)
    (hb : inRange (-2) 1 db = true) (rest : List Byte) :
    decode (encode (.diff dr dg db) ++ rest) = .ok (.diff dr dg db, rest) := by
  obtain ⟨x, rfl⟩ := Laws.exists_field (n := 4) (bias := 2) hr rfl rfl
  obtain ⟨y, rfl⟩ := Laws.exists_field (n := 4) (bias := 2) hg rfl rfl
  obtain ⟨z, rfl⟩ := Laws.exists_field (n := 4) (bias := 2) hb rfl rfl
  have fields : ∀ x y z : Fin 4,
      let b0 := 0x40#8 ||| (biased ((x.val : Int) - (2 : Nat)) 2 <<< 4) |||
        (biased ((y.val : Int) - (2 : Nat)) 2 <<< 2) ||| biased ((z.val : Int) - (2 : Nat)) 2
      opKind b0 = some .diff ∧ decodeDiff b0 = .diff (x.val - (2 : Nat)) (y.val - (2 : Nat)) (z.val - (2 : Nat)) := by
    decide
  obtain ⟨hkind, hread⟩ := fields x y z
  exact (decode_diff hkind rest).trans (by rw [hread])

/-- The green delta and the two cross deltas of LUMA read back from their biased fields (R73, R77). -/
theorem decode_encode_luma {dg drg dbg : Int} (hg : inRange (-32) 31 dg = true) (hr : inRange (-8) 7 drg = true)
    (hb : inRange (-8) 7 dbg = true) (rest : List Byte) :
    decode (encode (.luma dg drg dbg) ++ rest) = .ok (.luma dg drg dbg, rest) := by
  obtain ⟨x, rfl⟩ := Laws.exists_field (n := 64) (bias := 32) hg rfl rfl
  obtain ⟨y, rfl⟩ := Laws.exists_field (n := 16) (bias := 8) hr rfl rfl
  obtain ⟨z, rfl⟩ := Laws.exists_field (n := 16) (bias := 8) hb rfl rfl
  have green : ∀ x : Fin 64, opKind (0x80#8 ||| biased ((x.val : Int) - (32 : Nat)) 32) = some .luma ∧
      unbias (0x80#8 ||| biased ((x.val : Int) - (32 : Nat)) 32) 0 6 32 = (x.val : Int) - (32 : Nat) := by decide
  have cross : ∀ y z : Fin 16,
      let b1 := (biased ((y.val : Int) - (8 : Nat)) 8 <<< 4) ||| biased ((z.val : Int) - (8 : Nat)) 8
      unbias b1 4 4 8 = (y.val : Int) - (8 : Nat) ∧ unbias b1 0 4 8 = (z.val : Int) - (8 : Nat) := by decide
  obtain ⟨hkind, hgreen⟩ := green x
  obtain ⟨hred, hblue⟩ := cross y z
  exact (decode_luma hkind _ rest).trans (by rw [decodeLuma, hgreen, hred, hblue])

/-- Settles O2: each kind's tag is read first, and then each field gives its operand back. -/
theorem decodeOfEncodeIsTheOpcode : Obligations.DecodeOfEncodeIsTheOpcode := by
  intro i rest hwf
  cases i with
  | index i => exact decode_encode_index i rest
  | diff dr dg db =>
    simp only [Instr.wellFormed, Bool.and_eq_true] at hwf
    obtain ⟨⟨hr, hg⟩, hb⟩ := hwf
    exact decode_encode_diff hr hg hb rest
  | luma dg drg dbg =>
    simp only [Instr.wellFormed, Bool.and_eq_true] at hwf
    obtain ⟨⟨hg, hr⟩, hb⟩ := hwf
    exact decode_encode_luma hg hr hb rest
  | run len =>
    simp only [Instr.wellFormed, Bool.and_eq_true, decide_eq_true_eq] at hwf
    exact decode_encode_run hwf.1 hwf.2 rest
  | rgb r g b => exact decode_rgb rfl r g b rest
  | rgba r g b a => exact decode_rgba rfl r g b a rest

/-- How many pixels an opcode appends: the length of a RUN, else 1 (R195, R201). -/
def Instr.pixels : Instr → Nat
  | .run len => len
  | _ => 1

/-- Everything that a decode says of what it read: the operands are in range, the encoding is the bytes read, as many as
the first byte asks for, and the first byte gives the number of pixels (R74, R77, R79). -/
theorem decode_spec {b0 : Byte} {t rest : List Byte} {i : Instr} (h : decode (b0 :: t) = .ok (i, rest)) :
    i.wellFormed = true ∧ encode i ++ rest = b0 :: t ∧ (encode i).length = opLen b0 ∧ i.pixels = opPixels b0 := by
  have hlen := opLen_le_of_decode h
  obtain ⟨kind, hkind⟩ := Option.ne_none_iff_exists'.mp (opKind_ne_none b0)
  rw [opLen_of_opKind hkind] at hlen
  rw [opLen_of_opKind hkind, opPixels, hkind]
  cases kind with
  | index =>
    cases (decode_index hkind t).symm.trans h
    obtain ⟨hwf, hbytes⟩ := encode_decodeIndex hkind
    exact ⟨hwf, by rw [hbytes]; rfl, by rw [hbytes]; rfl, rfl⟩
  | diff =>
    cases (decode_diff hkind t).symm.trans h
    obtain ⟨hwf, hbytes⟩ := encode_decodeDiff hkind
    exact ⟨hwf, by rw [hbytes]; rfl, by rw [hbytes]; rfl, rfl⟩
  | run =>
    cases (decode_run hkind t).symm.trans h
    obtain ⟨hwf, hbytes⟩ := encode_decodeRun hkind
    exact ⟨hwf, by rw [hbytes]; rfl, by rw [hbytes]; rfl, rfl⟩
  | luma =>
    match t, hlen with
    | b1 :: t, _ =>
      cases (decode_luma hkind b1 t).symm.trans h
      obtain ⟨hwf, hbytes⟩ := encode_decodeLuma b1 hkind
      exact ⟨hwf, by rw [hbytes]; rfl, by rw [hbytes]; rfl, rfl⟩
  | rgb =>
    match t, hlen with
    | r :: g :: b :: t, _ =>
      cases (decode_rgb hkind r g b t).symm.trans h
      exact ⟨rfl, by rw [eq_of_opKind_rgb hkind]; rfl, rfl, rfl⟩
  | rgba =>
    match t, hlen with
    | r :: g :: b :: a :: t, _ =>
      cases (decode_rgba hkind r g b a t).symm.trans h
      exact ⟨rfl, by rw [eq_of_opKind_rgba hkind]; rfl, rfl, rfl⟩

/-- Settles O3: a sequence that decodes has a first byte, and `decode_spec` says the rest. -/
theorem encodeOfDecodeIsTheBytesRead : Obligations.EncodeOfDecodeIsTheBytesRead := by
  intro bs rest i h
  cases bs with
  | nil => cases h
  | cons b0 t =>
    obtain ⟨hwf, hbytes, -, -⟩ := decode_spec h
    exact ⟨hwf, hbytes⟩

/-- An encoding is never empty, and its first byte asks for exactly its length (R70, R79). -/
theorem encode_eq_cons {i : Instr} (hwf : i.wellFormed = true) :
    ∃ b0 t, encode i = b0 :: t ∧ opLen b0 = (encode i).length := by
  cases i with
  | index i => exact Laws.EncodeLength.index i hwf
  | diff dr dg db => exact Laws.EncodeLength.diff dr dg db hwf
  | luma dg drg dbg => exact Laws.EncodeLength.luma dg drg dbg hwf
  | run len => exact Laws.EncodeLength.run len hwf
  | rgb r g b => exact Laws.EncodeLength.rgb r g b hwf
  | rgba r g b a => exact Laws.EncodeLength.rgba r g b a hwf

/-- An opcode has 1 to 5 bytes (R70). -/
theorem encode_length_bounds (i : Instr) : 1 ≤ (encode i).length ∧ (encode i).length ≤ 5 := by
  cases i <;> simp [encode]

/-- Settles O1: the six words, read. -/
theorem opcodeWordsDecodeToTheirOpcodes : Obligations.OpcodeWordsDecodeToTheirOpcodes := by
  unfold Obligations.OpcodeWordsDecodeToTheirOpcodes
  decide

/-- Settles O4: all 256 bytes. -/
theorem kindOfEveryByte : Obligations.KindOfEveryByte := by
  unfold Obligations.KindOfEveryByte
  decide

end Sys2Proof

namespace Sys2Proof.Machine

/-- An assembly of accepted lines is their bytes one after the other (R82). -/
theorem assemble_of_wellFormed {ls : List Line} (h : ∀ l ∈ ls, l.wellFormed = true) :
    assemble ls = some (ls.flatMap lineBytes) := by
  induction ls with
  | nil => rfl
  | cons l ls ih =>
    rw [assemble, if_pos (h l List.mem_cons_self), ih fun l' hl' => h l' (List.mem_cons_of_mem l hl')]
    rfl

/-- One ill-formed line refuses the whole assembly (R82). -/
theorem assemble_of_not_wellFormed {ls : List Line} (h : ∃ l ∈ ls, l.wellFormed = false) : assemble ls = none := by
  induction ls with
  | nil => simp at h
  | cons l ls ih =>
    rw [assemble]
    cases hl : l.wellFormed with
    | false => rfl
    | true =>
      obtain ⟨l', hmem, hl'⟩ := h
      obtain rfl | htail := List.mem_cons.mp hmem
      · rw [hl] at hl'; cases hl'
      · rw [ih ⟨l', htail, hl'⟩]; rfl

/-- Settles O6: without an ill-formed line the assembly is the lines' bytes, and each line's bytes are those of its row. -/
theorem assemblerRefusesExactlyOperandsOutOfRange : Obligations.AssemblerRefusesExactlyOperandsOutOfRange := by
  intro ls
  by_cases hbad : ∃ l ∈ ls, l.wellFormed = false
  · have hnone := assemble_of_not_wellFormed hbad
    exact ⟨iff_of_true hnone hbad, fun bs hbs => by rw [hnone] at hbs; cases hbs⟩
  · have hgood : ∀ l ∈ ls, l.wellFormed = true := by simpa using hbad
    have hsome := assemble_of_wellFormed hgood
    refine ⟨iff_of_false (by rw [hsome]; exact Option.some_ne_none _) hbad, fun bs hbs => ?_⟩
    obtain rfl : ls.flatMap lineBytes = bs := Option.some.inj (hsome.symm.trans hbs)
    refine congrArg List.flatten (List.map_congr_left fun l hl => ?_)
    have hwf := hgood l hl
    match l, hwf with
    | .header w h ch cs, _ => rfl
    | .endMark, _ => rfl
    | .op (.index i), _ => exact encode_index i
    | .op (.diff dr dg db), hwf => exact encode_diff_of_fits hwf
    | .op (.luma dg drg dbg), hwf => exact encode_luma_of_fits hwf
    | .op (.run len), hwf =>
      simp only [Line.wellFormed, Instr.wellFormed, Bool.and_eq_true, decide_eq_true_eq] at hwf
      have sums : ∀ x : Fin 62, 0xC0#8 ||| BitVec.ofNat 8 x.val = BitVec.ofNat 8 (0xC0 + x.val) := by decide
      exact congrArg (· :: []) (sums ⟨len - 1, by omega⟩)
    | .op (.rgb r g b), _ => rfl
    | .op (.rgba r g b a), _ => rfl

end Sys2Proof.Machine
end

section
/-! SUPPORT. The pixel arithmetic and layouts (R46, R53, R101 to R109): the deltas added back, the hash in six bits, the
word and the bytes of a pixel, and the statements settled from them. -/
namespace Sys2Proof.Machine

/-- Settles O7: the difference of two bytes by value. -/
theorem deltaIsTheExactDifference : Obligations.DeltaIsTheExactDifference := by
  intro a b
  have ha := a.isLt
  have hb := b.isLt
  rw [delta_eq_sub]
  exact ⟨rfl, by omega, by omega⟩

/-- A measured delta added back gives the channel (R109). -/
theorem wrapAdd_delta (a b : Byte) : wrapAdd b (delta a b) = a := by
  have hsum := wrapAdd_toNat b (delta a b)
  rw [delta_eq_sub] at hsum ⊢
  apply BitVec.eq_of_toNat_eq
  have ha := a.isLt
  omega

/-- A cross delta and the green delta make the delta again (R102). -/
theorem crossDelta_add (d dg : Int) : crossDelta d dg + dg = d := Int.sub_add_cancel d dg

/-- The three measured deltas added to the previous pixel, of equal alpha, give the pixel (R109). -/
theorem addDeltas_delta {p q : Pixel} (halpha : p.a = q.a) :
    addDeltas q (delta p.r q.r) (delta p.g q.g) (delta p.b q.b) = p := by
  simp only [addDeltas, wrapAdd_delta, ← halpha]

/-- Settles O9: each channel by `wrapAdd_delta`, the cross deltas taken back first. -/
theorem measuredDeltasAddBack : Obligations.MeasuredDeltasAddBack := by
  intro p q halpha
  rw [crossDelta_add, crossDelta_add]
  exact ⟨addDeltas_delta halpha, addDeltas_delta halpha⟩

/-- Settles O10: the six-bit sum drops multiples of 64 only. -/
theorem hashIsTheWeightedSumModulo64 : Obligations.HashIsTheWeightedSumModulo64 := by
  intro p
  have hr := p.r.isLt
  have hg := p.g.isLt
  have hb := p.b.isLt
  have ha := p.a.isLt
  refine ⟨rfl, ?_, ?_⟩
  · unfold hashSum
    omega
  · simp only [pixelHash, hashSum, BitVec.toNat_add, BitVec.toNat_mul, BitVec.toNat_setWidth, BitVec.toNat_ofNat]
    omega

/-- Red is the top byte of the word, then green, blue and alpha (R46). -/
theorem pixelWord_toNat (p : Pixel) :
    (pixelWord p).toNat = p.r.toNat * 2 ^ 24 + p.g.toNat * 2 ^ 16 + p.b.toNat * 2 ^ 8 + p.a.toNat := by
  have append : ∀ {w : Nat} (x : BitVec w) (y : Byte), (x ++ y).toNat = x.toNat * 2 ^ 8 + y.toNat := fun x y => by
    rw [BitVec.toNat_append, ← Nat.shiftLeft_add_eq_or_of_lt y.isLt, Nat.shiftLeft_eq]
  rw [pixelWord, append, append, append]
  omega

/-- The word gives the pixel back (R46). -/
theorem wordPixel_pixelWord (p : Pixel) : wordPixel (pixelWord p) = p := by
  have hr := p.r.isLt
  have hg := p.g.isLt
  have hb := p.b.isLt
  have ha := p.a.isLt
  have channel : ∀ (lo : Nat) (b : Byte), (pixelWord p).toNat / 2 ^ lo % 2 ^ 8 = b.toNat →
      (pixelWord p).extractLsb' lo 8 = b := fun lo b h =>
    BitVec.eq_of_toNat_eq (by rw [BitVec.extractLsb'_toNat, Nat.shiftRight_eq_div_pow, h])
  rw [pixelWord_toNat] at channel
  simp only [wordPixel, channel 24 p.r (by omega), channel 16 p.g (by omega), channel 8 p.b (by omega),
    channel 0 p.a (by omega)]

/-- Settles O12: the word by value and back, and the four bytes by definition. -/
theorem pixelLayoutsHoldEveryChannel : Obligations.PixelLayoutsHoldEveryChannel := fun p =>
  ⟨pixelWord_toNat p, wordPixel_pixelWord p, rfl, rfl, rfl, rfl⟩

end Sys2Proof.Machine
end

section
/-! SUPPORT. The header and the marker in an input (R131 to R142): a written header parses back, the marker is accepted
exactly where it is all that remains, and the statements settled from these. -/
namespace Sys2Proof.Machine

/-- The big-endian bytes of a word read back as the word (R55). -/
theorem be32_be32Bytes (w : Word) :
    be32 (w.extractLsb' 24 8) (w.extractLsb' 16 8) (w.extractLsb' 8 8) (w.extractLsb' 0 8) = w := by
  have hw := w.isLt
  apply BitVec.eq_of_toNat_eq
  simp only [be32_toNat, BitVec.extractLsb'_toNat, Nat.shiftRight_eq_div_pow]
  omega

theorem chTag_chByte (ch : ChannelTag) : chTag (chByte ch) = ch := by cases ch <;> decide

theorem csTag_csByte (cs : ColorTag) : csTag (csByte cs) = cs := by cases cs <;> decide

theorem headerBytes_length (w h : Word) (ch : ChannelTag) (cs : ColorTag) : (headerBytes w h ch cs).length = 14 := rfl

/-- An input that begins with a written header parses to the header's fields (R139). -/
theorem parseHeader_headerBytes {rd : Nat → Byte} {n : Nat} {w h : Word} {ch : ChannelTag} {cs : ColorTag}
    (hlen : 14 ≤ n) (hrd : ∀ k (hk : k < 14), rd k = (headerBytes w h ch cs)[k]'hk) :
    parseHeader rd n = .ok ⟨w, h, ch, cs⟩ := by
  have hmagic : [rd 0, rd 1, rd 2, rd 3] = magic := by
    rw [hrd 0 (by omega), hrd 1 (by omega), hrd 2 (by omega), hrd 3 (by omega)]
    rfl
  have hwidth : be32 (rd 4) (rd 5) (rd 6) (rd 7) = w := by
    rw [hrd 4 (by omega), hrd 5 (by omega), hrd 6 (by omega), hrd 7 (by omega)]
    exact be32_be32Bytes w
  have hheight : be32 (rd 8) (rd 9) (rd 10) (rd 11) = h := by
    rw [hrd 8 (by omega), hrd 9 (by omega), hrd 10 (by omega), hrd 11 (by omega)]
    exact be32_be32Bytes h
  have hch : chTag (rd 12) = ch := by rw [hrd 12 (by omega)]; exact chTag_chByte ch
  have hcs : csTag (rd 13) = cs := by rw [hrd 13 (by omega)]; exact csTag_csByte cs
  rw [parseHeader_of_magic hlen hmagic, hwidth, hheight, hch, hcs]

/-- Settles O14: the first 14 bytes of the sequence are the header's. -/
theorem headerRoundTrip : Obligations.HeaderRoundTrip := by
  intro w h ch cs t
  refine parseHeader_headerBytes (Nat.le_add_right 14 _) fun k hk => ?_
  have hk' : k < (headerBytes w h ch cs).length := hk
  rw [List.getD_eq_getElem?_getD, List.getElem?_append_left hk', List.getElem?_eq_getElem hk']
  rfl

/-- The validator, byte by byte (R142). -/
theorem markerOk_iff (rd : Nat → Byte) (o n : Nat) :
    markerOk rd o n = true ↔ n = o + 8 ∧ ∀ k (hk : k < 8), rd (o + k) = marker[k]'hk := by
  simp only [markerOk, Bool.and_eq_true, decide_eq_true_eq]
  refine and_congr_right fun _ => ⟨fun h k hk => ?_, fun h => ?_⟩
  · simp only [marker, List.cons.injEq] at h
    obtain ⟨h0, h1, h2, h3, h4, h5, h6, h7, -⟩ := h
    match k, hk with
    | 0, _ => exact h0
    | 1, _ => exact h1
    | 2, _ => exact h2
    | 3, _ => exact h3
    | 4, _ => exact h4
    | 5, _ => exact h5
    | 6, _ => exact h6
    | 7, _ => exact h7
  · have h0 : rd o = marker[0] := h 0 (by omega)
    rw [h0, h 1 (by omega), h 2 (by omega), h 3 (by omega), h 4 (by omega), h 5 (by omega), h 6 (by omega),
      h 7 (by omega)]
    rfl

/-- The marker's bytes: seven zeros and a one (R141). -/
theorem marker_getElem : ∀ k (hk : k < 8), marker[k]'hk = if k < 7 then 0x00#8 else 0x01#8 := by decide

/-- Settles O15: the eight bytes of the marker, the last one apart. -/
theorem markerAcceptedExactlyWhenItIsAllThatRemains : Obligations.MarkerAcceptedExactlyWhenItIsAllThatRemains := by
  intro rd o n
  simp only [markerOk_iff, marker_getElem]
  refine and_congr_right fun _ => ⟨fun h => ⟨fun k hk => ?_, ?_⟩, fun ⟨hzeros, hone⟩ k hk => ?_⟩
  · rw [h k (by omega), if_pos hk]
  · exact h 7 (by omega)
  · by_cases hk7 : k < 7
    · rw [if_pos hk7, hzeros k hk7]
    · obtain rfl : k = 7 := by omega
      exact hone

end Sys2Proof.Machine
end

section
/-! SUPPORT. A turn of the decode engine (R190 to R204): the effect of a decoded opcode, the one inversion of the turn,
and the statements about the decoder's steps settled from them. -/
namespace Sys2Proof.Machine

/-! An opcode by its effect -/

/-- What every opcode does (R193, R195): the engine's cache with the pixel stored at its hash, or as it was for a RUN;
`prev` and the offset; and as many copies of the pixel as the opcode has pixels. -/
theorem exec_effect (i : Instr) (s : State) :
    ∃ (cur : Pixel) (c : Cache), (c = s.dec.cache ∨ c = cacheStore s.dec.cache cur) ∧
      exec i s = .next (put cur i.pixels { s with dec := { s.dec with
        cache := c, prev := cur, offset := s.dec.offset + (encode i).length } }) := by
  cases i with
  | index i => exact ⟨_, _, .inr rfl, exec_index i s⟩
  | diff dr dg db => exact ⟨_, _, .inr rfl, exec_diff dr dg db s⟩
  | luma dg drg dbg => exact ⟨_, _, .inr rfl, exec_luma dg drg dbg s⟩
  | run len => exact ⟨_, _, .inl rfl, exec_run len s⟩
  | rgb r g b => exact ⟨_, _, .inr rfl, exec_rgb r g b s⟩
  | rgba r g b a => exact ⟨_, _, .inr rfl, exec_rgba r g b a s⟩

/-- An input, read by `rd`, holds the byte sequence `v` from address `a` on. -/
def holdsAt (rd : Nat → Byte) (a : Nat) (v : List Byte) : Prop := ∀ k (h : k < v.length), rd (a + k) = v[k]

/-- Inside the loop bound, where IN holds a well-formed opcode's bytes, the opcode step is its meaning: it ends before
the input does, since no opcode is longer than 5 bytes and 8 follow its first (R192, R194). -/
theorem decOpcodeStep_of_encode {s : State} {i : Instr} (hwf : i.wellFormed = true)
    (hloop : s.dec.offset + 8 < inputLength s) (hbytes : holdsAt (readIn s) s.dec.offset (encode i)) :
    decOpcodeStep s = exec i s := by
  obtain ⟨b0, t, hcons, hlen⟩ := encode_eq_cons hwf
  have hfirst : readIn s s.dec.offset = b0 := by
    have h0 := hbytes 0 (by rw [hcons]; exact Nat.succ_pos _)
    simpa [hcons] using h0
  have hmax := (encode_length_bounds i).2
  have hfetch := fetchBytes_eq s s.dec.offset (encode i) hbytes
  have hread := decodeOfEncodeIsTheOpcode i [] hwf
  rw [List.append_nil] at hread
  unfold decOpcodeStep
  dsimp only
  rw [hfirst, hlen, if_neg (by omega), hfetch, hread]

/-- Every byte of IN begins the encoding of a well-formed opcode (R80), whose length and pixels it gives. -/
theorem exists_opcode_at (s : State) (o : Nat) :
    ∃ i : Instr, i.wellFormed = true ∧ holdsAt (readIn s) o (encode i) ∧
      (encode i).length = opLen (readIn s o) ∧ i.pixels = opPixels (readIn s o) := by
  have hbytes : fetchBytes s o longestOpcode = readIn s o :: fetchBytes s (o + 1) 4 := rfl
  obtain ⟨i, hread, -⟩ := everyByteSequenceDecodesByItsFirstByte (readIn s o) (fetchBytes s (o + 1) 4) (by
    rw [fetchBytes_length]; exact opLen_le_longest _)
  obtain ⟨hwf, happend, hlen, hpixels⟩ := decode_spec hread
  refine ⟨i, hwf, fun k hk => ?_, hlen, hpixels⟩
  have hmax := (encode_length_bounds i).2
  rw [← hbytes] at happend
  have hget := fetchBytes_getElem? s o longestOpcode k (by unfold longestOpcode; omega)
  rw [← happend, List.getElem?_append_left hk, List.getElem?_eq_getElem hk] at hget
  exact (Option.some.inj hget).symm

/-- The machine after an opcode step that appended `cur` and left the cache `c`: the length and the pixel count are those
that the opcode's first byte gives (R79, R195). -/
def afterOpcode (s : State) (cur : Pixel) (c : Cache) : State :=
  put cur (opPixels (readIn s s.dec.offset)) { s with dec := { s.dec with
    cache := c, prev := cur, offset := s.dec.offset + opLen (readIn s s.dec.offset) } }

/-- An opcode step inside the loop bound runs an opcode, of the length and the pixel count that its first byte gives, and
does nothing else: the checks of R194 and R202 never fail. -/
theorem decOpcodeStep_effect {s : State} (hloop : s.dec.offset + 8 < inputLength s) :
    ∃ (cur : Pixel) (c : Cache), (c = s.dec.cache ∨ c = cacheStore s.dec.cache cur) ∧
      decOpcodeStep s = .next (afterOpcode s cur c) := by
  obtain ⟨i, hwf, hbytes, hlen, hpixels⟩ := exists_opcode_at s s.dec.offset
  obtain ⟨cur, c, hc, hexec⟩ := exec_effect i s
  rw [hlen, hpixels] at hexec
  exact ⟨cur, c, hc, (decOpcodeStep_of_encode hwf hloop hbytes).trans hexec⟩

/-! The turn -/

/-- Everything a turn of the decode engine can do, phase by phase. -/
inductive DecTurnTo (s : State) : State → Prop
  | rest (h : decBusy s = false) : DecTurnTo s s
  | headerError (h : s.dec.phase = .header) (e : DecErr)
      (he : parseHeader (readIn s) (inputLength s) = .error e) : DecTurnTo s (raiseError e 0 s)
  | headerOk (h : s.dec.phase = .header) (f : HeaderFields)
      (hf : parseHeader (readIn s) (inputLength s) = .ok f) :
      DecTurnTo s { s with dec := { s.dec with
        width := f.width, height := f.height, channels := f.channels, colorspace := f.colorspace,
        offset := 14, phase := .stream } }
  | opcode (h : s.dec.phase = .stream) (hloop : s.dec.offset + 8 < inputLength s) (cur : Pixel) (c : Cache)
      (hc : c = s.dec.cache ∨ c = cacheStore s.dec.cache cur) : DecTurnTo s (afterOpcode s cur c)
  | loopEnd (h : s.dec.phase = .stream) (hend : inputLength s ≤ s.dec.offset + 8) :
      DecTurnTo s { s with dec := { s.dec with phase := .marker } }
  | markerGood (h : s.dec.phase = .marker) (hok : markerOk (readIn s) s.dec.offset (inputLength s) = true) :
      DecTurnTo s { s with dec := { s.dec with phase := .doneOk } }
  | markerBad (h : s.dec.phase = .marker) (hbad : markerOk (readIn s) s.dec.offset (inputLength s) = false) :
      DecTurnTo s (raiseError .paddingMismatch s.dec.offset s)

theorem decMarkerStep_of_ok {s : State} (h : markerOk (readIn s) s.dec.offset (inputLength s) = true) :
    decMarkerStep s = { s with dec := { s.dec with phase := .doneOk } } := by
  rw [decMarkerStep, if_pos h]

theorem decMarkerStep_of_bad {s : State} (h : markerOk (readIn s) s.dec.offset (inputLength s) = false) :
    decMarkerStep s = raiseError .paddingMismatch s.dec.offset s := by
  rw [decMarkerStep, h]
  rfl

theorem decTurn_of_loopEnd {s : State} (h : s.dec.phase = .stream) (hend : inputLength s ≤ s.dec.offset + 8) :
    decTurn s = .next { s with dec := { s.dec with phase := .marker } } := by
  rw [decTurn_of_stream h, if_neg (by omega)]

theorem decTurn_of_opcode {s : State} (h : s.dec.phase = .stream) (hloop : s.dec.offset + 8 < inputLength s) :
    decTurn s = decOpcodeStep s := by
  rw [decTurn_of_stream h, if_pos hloop]

/-- A turn of the decode engine always answers a next state, one that `DecTurnTo` lists (R242). -/
theorem exists_decTurnTo (s : State) : ∃ t, decTurn s = .next t ∧ DecTurnTo s t := by
  cases hbusy : decBusy s with
  | false => exact ⟨s, decTurn_of_not_busy hbusy, .rest hbusy⟩
  | true =>
    cases hphase : s.dec.phase with
    | idle | doneOk | doneErr => simp [decBusy, hphase] at hbusy
    | header =>
      cases hparse : parseHeader (readIn s) (inputLength s) with
      | error e => exact ⟨_, by rw [decTurn_of_header hphase, decHeaderStep_of_error hparse], .headerError hphase e hparse⟩
      | ok f => exact ⟨_, by rw [decTurn_of_header hphase, decHeaderStep_of_ok hparse], .headerOk hphase f hparse⟩
    | stream =>
      by_cases hloop : s.dec.offset + 8 < inputLength s
      · obtain ⟨cur, c, hc, hstep⟩ := decOpcodeStep_effect hloop
        exact ⟨_, (decTurn_of_opcode hphase hloop).trans hstep, .opcode hphase hloop cur c hc⟩
      · exact ⟨_, decTurn_of_loopEnd hphase (by omega), .loopEnd hphase (by omega)⟩
    | marker =>
      cases hok : markerOk (readIn s) s.dec.offset (inputLength s) with
      | true => exact ⟨_, by rw [decTurn_of_marker hphase, decMarkerStep_of_ok hok], .markerGood hphase hok⟩
      | false => exact ⟨_, by rw [decTurn_of_marker hphase, decMarkerStep_of_bad hok], .markerBad hphase hok⟩

/-- The inversion of a turn of the decode engine. -/
theorem decTurnTo_of_decTurn {s t : State} (h : decTurn s = .next t) : DecTurnTo s t := by
  obtain ⟨u, hturn, hto⟩ := exists_decTurnTo s
  cases hturn.symm.trans h
  exact hto

/-- The two errors of the header parser (R133, R135). -/
theorem parseHeader_error {rd : Nat → Byte} {n : Nat} {e : DecErr} (h : parseHeader rd n = .error e) :
    e = .headerTooShort ∨ e = .invalidMagic := by
  unfold parseHeader at h
  split at h
  · cases h; exact .inl rfl
  · split at h
    · cases h; exact .inr rfl
    · cases h

/-- A header that parses is 14 bytes long (R133). -/
theorem parseHeader_ok_length {rd : Nat → Byte} {n : Nat} {f : HeaderFields} (h : parseHeader rd n = .ok f) :
    14 ≤ n := by
  refine Nat.le_of_not_lt fun hshort => ?_
  rw [parseHeader_of_short rd hshort] at h
  cases h

/-! The statements -/

/-- Settles O17: the two outcomes of the validator. -/
theorem markerStepEndsTheDecode : Obligations.MarkerStepEndsTheDecode := by
  intro s hphase
  rw [decTurn_of_marker hphase]
  exact ⟨fun hok => by rw [decMarkerStep_of_ok hok], fun hbad => by rw [decMarkerStep_of_bad hbad]; rfl⟩

/-- Settles O26: the loop's condition is false at the bound. -/
theorem loopStopsEightBytesBeforeTheEnd : Obligations.LoopStopsEightBytesBeforeTheEnd := fun _ =>
  decTurn_of_loopEnd

/-- Settles O27: of the turns only three end at DONE_ERR, each by one `raiseError`. -/
theorem errorEntryRecordsItsCauseAndNothingElse : Obligations.ErrorEntryRecordsItsCauseAndNothingElse := by
  intro s t hturn hbefore hafter
  cases decTurnTo_of_decTurn hturn with
  | rest => exact absurd hafter hbefore
  | headerError hphase e he => exact ⟨rfl, .inl ⟨hphase, parseHeader_error he, rfl⟩⟩
  | headerOk => cases hafter
  | opcode hphase => exact absurd hafter hbefore
  | loopEnd => cases hafter
  | markerGood => cases hafter
  | markerBad hphase => exact ⟨rfl, .inr (.inr ⟨hphase, rfl, rfl⟩)⟩

/-- Settles O28: from STREAM a turn is an opcode, which keeps the phase, or the end of the loop. -/
theorem opcodeStepsRaiseNoError : Obligations.OpcodeStepsRaiseNoError := by
  intro s hphase
  obtain ⟨t, hturn, hto⟩ := exists_decTurnTo s
  refine ⟨t, hturn, ?_⟩
  cases hto with
  | rest hidle => simp [decBusy, hphase] at hidle
  | headerError h => rw [hphase] at h; cases h
  | headerOk h => rw [hphase] at h; cases h
  | opcode => exact ⟨.inl hphase, rfl, rfl⟩
  | loopEnd => exact ⟨.inr rfl, rfl, rfl⟩
  | markerGood h => rw [hphase] at h; cases h
  | markerBad h => rw [hphase] at h; cases h

/-- Settles O29: the slot's pixel is stored at its hash, which is another slot. -/
theorem indexOfAForeignSlotEvictsAnother : Obligations.IndexOfAForeignSlotEvictsAnother := by
  intro i s t hforeign hexec
  cases (exec_index i s).symm.trans hexec
  rw [completeOpcode_dec, decStore_dec]
  dsimp only
  rw [cacheRead_cacheStore, cacheRead_cacheStore]
  exact ⟨if_pos rfl, if_neg (Ne.symm hforeign)⟩

/-! The step of the machine -/

theorem nextAgent_of_cons {s : State} {a : Agent} {rest : List Agent} (h : s.sched = a :: rest) : nextAgent s = a := by
  rw [nextAgent, h]

theorem nextAgent_of_nil {s : State} (h : s.sched = []) :
    nextAgent s = if decBusy s then .dec else if encBusy s then .enc else .host := by
  rw [nextAgent, h]

theorem step_of_enc {s : State} (h : nextAgent s = .enc) : step s = .next (encTurn (takeTurn s)) := by
  rw [step, h]; rfl

theorem step_of_dec {s : State} (h : nextAgent s = .dec) : step s = decTurn (takeTurn s) := by
  rw [step, h]; rfl

theorem step_of_host {s : State} (h : nextAgent s = .host) : step s = hostTurn (takeTurn s) := by
  rw [step, h]; rfl

theorem hostTurn_of_cons {s : State} {act : HostAction} {rest : List HostAction} (h : s.pending = act :: rest) :
    hostTurn s = hostAct act { s with pending := rest } := by
  rw [hostTurn, h]

theorem hostTurn_of_nil {s : State} (h : s.pending = []) : hostTurn s = .next s := by
  rw [hostTurn, h]

/-- In STREAM inside the loop bound, on the decode engine's turn, a step is the meaning of the opcode that IN holds at
the offset (R192). -/
theorem step_of_opcode {s : State} {i : Instr} (hwf : i.wellFormed = true) (hagent : nextAgent s = .dec)
    (hphase : s.dec.phase = .stream) (hloop : s.dec.offset + 8 < inputLength s)
    (hbytes : holdsAt (readIn s) s.dec.offset (encode i)) : step s = exec i (takeTurn s) :=
  calc step s
    _ = decTurn (takeTurn s) := step_of_dec hagent
    _ = decOpcodeStep (takeTurn s) := decTurn_of_opcode hphase hloop
    _ = exec i (takeTurn s) := decOpcodeStep_of_encode hwf hloop hbytes

/-- Settles O24: the three agents' turns, and the opcode step. -/
theorem stepRunsTheDecodedOpcode : Obligations.StepRunsTheDecodedOpcode := by
  refine ⟨fun s => ⟨rfl, fun a rest => nextAgent_of_cons, nextAgent_of_nil, step_of_enc, step_of_dec, ?_, ?_⟩,
    fun s i => step_of_opcode⟩
  · intro act rest hhost hpending
    rw [step_of_host hhost]
    exact hostTurn_of_cons hpending
  · intro hhost hpending
    rw [step_of_host hhost]
    exact hostTurn_of_nil hpending

/-! A placed word (log 13) -/

/-- A placed opcode leaves room for itself and the marker below 2^32 (R6, log 13). -/
theorem placeOffset_lt (s : State) : placeOffset s + 13 < 2 ^ 32 := by
  unfold placeOffset
  split
  next h => exact h.2
  next => decide

theorem enterStream_phase (s : State) : (enterStream s).dec.phase = .stream := by
  unfold enterStream
  split
  next h => exact h
  next => rfl

/-- `IN` after the bytes are laid: they stand at the offset. -/
theorem readIn_placeOpcode (bytes : List Byte) (s : State) :
    holdsAt (readIn (placeOpcode bytes s)) (placeOpcode bytes s).dec.offset bytes := by
  intro k hk
  have hread := Memory.read_writeAll_inside bytes (enterStream s).inBuf (placeOffset s) hk
  exact congrArg (Option.getD · _) hread

/-- Five placed bytes are inside the loop bound. -/
theorem placeOpcode_loop {bytes : List Byte} (s : State) (hlen : bytes.length = longestOpcode) :
    (placeOpcode bytes s).dec.offset + 8 < inputLength (placeOpcode bytes s) := by
  have hoffset := placeOffset_lt s
  have hinLen := (enterStream s).dec.inLen.isLt
  show placeOffset s + 8 <
    (BitVec.ofNat 32 (max (enterStream s).dec.inLen.toNat (placeOffset s + bytes.length + 8))).toNat
  rw [BitVec.toNat_ofNat, Nat.mod_eq_of_lt (by unfold longestOpcode at hlen; omega)]
  unfold longestOpcode at hlen
  omega

/-- Settles O25: five bytes always decode, the bytes of the decoded opcode are the first of them, and they are placed at
the offset of an engine in STREAM whose turn is next. -/
theorem placedWordIsTheNextOpcodeRun : Obligations.PlacedWordIsTheNextOpcodeRun := by
  intro s nbits w
  have hlen := wordBytes_length nbits w longestOpcode 0
  cases hbytes : wordBytes nbits w longestOpcode 0 with
  | nil => rw [hbytes] at hlen; cases hlen
  | cons b0 t =>
    have hmax := opLen_le_longest b0
    rw [hbytes, List.length_cons] at hlen
    obtain ⟨i, hread, -⟩ := everyByteSequenceDecodesByItsFirstByte b0 t (by omega)
    obtain ⟨hwf, happend, -, -⟩ := decode_spec hread
    refine ⟨i, by rw [decodeTableWord, hbytes, hread], ?_⟩
    rw [State.withFetchWord, hbytes]
    refine step_of_opcode hwf rfl (enterStream_phase s) (placeOpcode_loop s hlen) fun k hk => ?_
    have hplaced := readIn_placeOpcode (b0 :: t) s k (by rw [← happend, List.length_append]; omega)
    exact hplaced.trans ((List.getElem_of_eq happend.symm _).trans (List.getElem_append_left hk))

end Sys2Proof.Machine
end

section
/-! SUPPORT. The encode engine (R160 to R176): the one inversion of its turn, the progress it keeps from START to DONE
whatever the rooms are, the position after each step of an encode, and the statements settled from them. -/
namespace Sys2Proof.Machine

/-! What a pixel step emits -/

/-- Opcode `i`, read by a decode engine with cache `c` and previous pixel `q`, appends `p` once and leaves the cache
`c'`. -/
def opcodeGives (i : Instr) (c : Cache) (q p : Pixel) (c' : Cache) : Prop :=
  ∀ u : State, u.dec.cache = c → u.dec.prev = q → exec i u = .next (put p 1 { u with dec := { u.dec with
    cache := c', prev := p, offset := u.dec.offset + (encode i).length } })

/-- INDEX of the slot that holds a pixel at its own hash gives the pixel and leaves the cache as it was (R193, R198). -/
theorem opcodeGives_index {c : Cache} {p : Pixel} (q : Pixel) (hhit : cacheRead c (pixelHash p) = p) :
    opcodeGives (.index (pixelHash p)) c q p c := by
  rintro u rfl rfl
  have hstore : decStore p u = u := by rw [decStore, cacheStore_self _ _ hhit]
  rw [exec_index, hhit, hstore]
  rfl

/-- The selected opcode reads back as the pixel, which is then stored at its hash (R109, R167 to R170). -/
theorem opcodeGives_selectOpcode (c : Cache) (q p : Pixel) :
    opcodeGives (selectOpcode p q) c q p (cacheStore c p) := by
  rintro u rfl rfl
  unfold selectOpcode
  split
  next halpha =>
    have halpha := (alphaEq_iff _ _).mp halpha
    dsimp only
    split
    · rw [exec_diff, addDeltas_delta halpha]
      rfl
    · split
      · rw [exec_luma, crossDelta_add, crossDelta_add, addDeltas_delta halpha]
        rfl
      · rw [exec_rgb, ← halpha]
        rfl
  next => rfl

/-- The selector's range tests are the operand ranges (R77, R107, R108). -/
theorem selectOpcode_wellFormed (p q : Pixel) : (selectOpcode p q).wellFormed = true := by
  unfold selectOpcode
  split
  · dsimp only
    split
    next hdiff => exact hdiff
    next =>
      split
      next hluma => exact hluma
      next => rfl
  next => rfl

/-- What a pixel step of `s` on pixel `p` emits, and the run and the cache it leaves (R163 to R170): the run grows, or is
written at its cap, or is flushed before an opcode that reads back as the pixel. -/
inductive PixelEmits (s : State) (p : Pixel) : List Byte → Nat → Cache → Prop
  | grow (heq : p = s.enc.prev) (hrun : s.enc.run ≠ 61) : PixelEmits s p [] (s.enc.run + 1) s.enc.cache
  | cap (heq : p = s.enc.prev) (hrun : s.enc.run = 61) : PixelEmits s p [0xFD#8] 0 s.enc.cache
  | opcode (hne : p ≠ s.enc.prev) (i : Instr) (hwf : i.wellFormed = true) (c : Cache)
      (hc : c = s.enc.cache ∨ c = cacheStore s.enc.cache p) (hgives : opcodeGives i s.enc.cache s.enc.prev p c) :
      PixelEmits s p (runBytes s.enc.run ++ encode i) 0 c

/-- The bytes of a pixel step: at most 5 beside the flush of a run, and none only while the run grows (R175). -/
theorem PixelEmits.length {s : State} {p : Pixel} {v : List Byte} {r : Nat} {c : Cache} (h : PixelEmits s p v r c) :
    (v.length = 0 ∧ r = s.enc.run + 1 ∧ s.enc.run ≠ 61) ∨ (v.length = 1 ∧ r = 0 ∧ s.enc.run = 61) ∨
      (r = 0 ∧ 1 + (if s.enc.run = 0 then 0 else 1) ≤ v.length ∧ v.length ≤ 5 + if s.enc.run = 0 then 0 else 1) := by
  cases h with
  | grow _ hrun => exact .inl ⟨rfl, rfl, hrun⟩
  | cap _ hrun => exact .inr (.inl ⟨rfl, rfl, hrun⟩)
  | opcode _ i =>
    have hbounds := encode_length_bounds i
    refine .inr (.inr ⟨rfl, ?_⟩)
    rw [List.length_append, runBytes_length]
    omega

/-- Beside the cache it had, the engine can only be left with the pixel stored at its hash. -/
theorem PixelEmits.cache_eq {s : State} {p : Pixel} {v : List Byte} {r : Nat} {c : Cache} (h : PixelEmits s p v r c) :
    c = s.enc.cache ∨ c = cacheStore s.enc.cache p := by
  cases h with
  | grow => exact .inl rfl
  | cap => exact .inl rfl
  | opcode _ _ _ _ hc => exact hc

/-! The turn -/

/-- The engine after a pixel step, the emission apart (R162, R171). -/
def afterPixel (s : State) (r : Nat) (c : Cache) : State :=
  { s with enc := { s.enc with
    cache := c, run := r, prev := readPin s s.enc.pos, pos := s.enc.pos + 1,
    phase := if s.enc.pos + 1 = pixelCount s then .finish else .pixels } }

/-- Everything a turn of the encode engine can do, phase by phase. -/
inductive EncTurnTo (s : State) : State → Prop
  | rest (h : encBusy s = false ∨ (s.enc.phase = .pixels ∧ pixelCount s ≤ s.enc.pos)) : EncTurnTo s s
  | header (h : s.enc.phase = .header) :
      EncTurnTo s (emit (headerBytes s.enc.width s.enc.height s.enc.channels s.enc.colorspace)
        { s with enc := { s.enc with phase := afterHeader (pixelCount s) } })
  | pixel (h : s.enc.phase = .pixels) (hpos : s.enc.pos < pixelCount s) {v : List Byte} {r : Nat} {c : Cache}
      (hv : PixelEmits s (readPin s s.enc.pos) v r c) : EncTurnTo s (emit v (afterPixel s r c))
  | finish (h : s.enc.phase = .finish) :
      EncTurnTo s (emit (runBytes s.enc.run ++ marker) { s with enc := { s.enc with run := 0, phase := .done } })

/-- The header step is one emission (R160). -/
theorem encHeaderStep_eq (s : State) :
    encHeaderStep s = emit (headerBytes s.enc.width s.enc.height s.enc.channels s.enc.colorspace)
      { s with enc := { s.enc with phase := afterHeader (pixelCount s) } } := by
  unfold encHeaderStep emit
  rfl

/-- The finish step's turn is one emission (R173). -/
theorem encTurn_of_finish_eq {s : State} (h : s.enc.phase = .finish) :
    encTurn s = emit (runBytes s.enc.run ++ marker) { s with enc := { s.enc with run := 0, phase := .done } } :=
  (encTurn_of_finish h).trans (encFinishStep_eq s)

theorem encTurn_of_no_pixel_left {s : State} (hphase : s.enc.phase = .pixels) (hpos : ¬ s.enc.pos < pixelCount s) :
    encTurn s = s := by
  rw [encTurn_of_pixels hphase, if_neg hpos]

/-- A pixel step is one emission after the update of R162 and R171. -/
theorem encTurn_of_pixel {s : State} (hphase : s.enc.phase = .pixels) (hpos : s.enc.pos < pixelCount s) :
    ∃ v r c, PixelEmits s (readPin s s.enc.pos) v r c ∧ encTurn s = emit v (afterPixel s r c) := by
  by_cases heq : readPin s s.enc.pos = s.enc.prev
  · by_cases hcap : s.enc.run = 61
    · refine ⟨_, _, _, .cap heq hcap, ?_⟩
      rw [encTurn_of_equal_pixel hphase hpos heq, if_pos hcap, if_pos hcap, afterPixel, heq]
    · refine ⟨_, _, _, .grow heq hcap, ?_⟩
      rw [encTurn_of_equal_pixel hphase hpos heq, if_neg hcap, if_neg hcap, afterPixel, heq]
  · by_cases hhit : cacheRead s.enc.cache (pixelHash (readPin s s.enc.pos)) = readPin s s.enc.pos
    · refine ⟨_, _, _, .opcode heq _ rfl _ (.inl rfl) (opcodeGives_index _ hhit), ?_⟩
      rw [encTurn_of_cached_pixel hphase hpos heq hhit, encode_index, afterPixel]
    · refine ⟨_, _, _, .opcode heq _ (selectOpcode_wellFormed _ _) _ (.inr rfl) (opcodeGives_selectOpcode _ _ _), ?_⟩
      rw [encTurn_of_missed_pixel hphase hpos heq hhit, afterPixel]

/-- The inversion of a turn of the encode engine. -/
theorem encTurnTo_encTurn (s : State) : EncTurnTo s (encTurn s) := by
  cases hphase : s.enc.phase with
  | idle => rw [encTurn_of_idle hphase]; exact .rest (.inl (by simp [encBusy, hphase]))
  | done => rw [encTurn_of_done hphase]; exact .rest (.inl (by simp [encBusy, hphase]))
  | header => rw [encTurn_of_header hphase, encHeaderStep_eq]; exact .header hphase
  | finish => rw [encTurn_of_finish_eq hphase]; exact .finish hphase
  | pixels =>
    by_cases hpos : s.enc.pos < pixelCount s
    · obtain ⟨v, r, c, hv, hturn⟩ := encTurn_of_pixel hphase hpos
      rw [hturn]
      exact .pixel hphase hpos hv
    · rw [encTurn_of_no_pixel_left hphase hpos]
      exact .rest (.inr ⟨hphase, by omega⟩)

/-- No turn of the encode engine changes its configuration, or anything outside the engine and OUT (R45, R52). -/
theorem EncTurnTo.frame {s t : State} (h : EncTurnTo s t) :
    t = { s with
      outBuf := t.outBuf
      enc := { t.enc with
        width := s.enc.width, height := s.enc.height, channels := s.enc.channels, colorspace := s.enc.colorspace,
        count := s.enc.count } } := by
  cases h <;> rfl

/-! The statements about one turn -/

/-- Settles O30: the header step is one emission, and the count is 0 exactly when there is no pixel. -/
theorem encodeHeaderStepWritesTheHeader : Obligations.EncodeHeaderStepWritesTheHeader := by
  intro s hphase
  have hcount : afterHeader (pixelCount s) = if s.enc.count = 0#32 then .finish else .pixels := by
    rw [afterHeader, pixelCount]
    simp only [← BitVec.toNat_inj]
    rfl
  obtain ⟨hbytes, hframe⟩ := encTurn_effect_of_emit ((encTurn_of_header hphase).trans (encHeaderStep_eq s)) rfl
  rw [hcount, headerBytes_length] at hframe
  exact ⟨hbytes, hframe⟩

/-- Settles O37: in each phase the turn is the same emission, and none but the header step's reads a header register. -/
theorem pixelStepsReadNoHeaderField : Obligations.PixelStepsReadNoHeaderField := by
  intro s w h ch cs hheader
  cases hphase : s.enc.phase with
  | header => exact absurd hphase hheader
  | idle =>
    rw [encTurn_of_idle hphase]
    exact encTurn_of_idle hphase
  | done =>
    rw [encTurn_of_done hphase]
    exact encTurn_of_done hphase
  | finish =>
    rw [encTurn_of_finish_eq hphase]
    exact encTurn_of_finish_eq hphase
  | pixels =>
    by_cases hpos : s.enc.pos < pixelCount s
    · by_cases heq : readPin s s.enc.pos = s.enc.prev
      · rw [encTurn_of_equal_pixel hphase hpos heq]
        exact encTurn_of_equal_pixel hphase hpos heq
      · by_cases hhit : cacheRead s.enc.cache (pixelHash (readPin s s.enc.pos)) = readPin s s.enc.pos
        · rw [encTurn_of_cached_pixel hphase hpos heq hhit]
          exact encTurn_of_cached_pixel hphase hpos heq hhit
        · rw [encTurn_of_missed_pixel hphase hpos heq hhit]
          exact encTurn_of_missed_pixel hphase hpos heq hhit
    · rw [encTurn_of_no_pixel_left hphase hpos]
      exact encTurn_of_no_pixel_left hphase hpos

/-! Progress -/

/-- The clauses of `EncInv` that START establishes and every turn keeps in any buffer, however small. -/
structure EncProgress (s : State) : Prop where
  run_le : s.enc.phase ≠ .idle → s.enc.run ≤ 61
  header : s.enc.phase = .header → s.enc.pos = 0 ∧ s.enc.outLen = 0 ∧ s.enc.run = 0 ∧ s.enc.prev = opaqueBlack
  pixels : s.enc.phase = .pixels → s.enc.pos < pixelCount s
  finish : s.enc.phase = .finish → s.enc.pos = pixelCount s
  stream : s.enc.phase = .pixels ∨ s.enc.phase = .finish →
    14 ≤ s.enc.outLen ∧ s.enc.pos ≤ 62 * (s.enc.outLen - 14) + s.enc.run ∧
      s.enc.outLen + (if s.enc.run = 0 then 0 else 1) ≤ 14 + 5 * s.enc.pos
  done : s.enc.phase = .done →
    s.enc.run = 0 ∧ 22 ≤ s.enc.outLen ∧ s.enc.pos ≤ 62 * (s.enc.outLen - 22) ∧ s.enc.outLen ≤ 22 + 5 * s.enc.pos

theorem encProgress_encStart (s : State) : EncProgress (encStart s) where
  run_le _ := Nat.zero_le _
  header _ := ⟨rfl, rfl, rfl, rfl⟩
  pixels h := nomatch h
  finish h := nomatch h
  stream h := nomatch h
  done h := nomatch h

/-- The header step from position 0: 14 bytes, no pixel yet. -/
theorem EncProgress.header_step {s : State} (hs : EncProgress s) (hphase : s.enc.phase = .header) :
    EncProgress (emit (headerBytes s.enc.width s.enc.height s.enc.channels s.enc.colorspace)
      { s with enc := { s.enc with phase := afterHeader (pixelCount s) } }) := by
  obtain ⟨hpos, houtLen, hrun, -⟩ := hs.header hphase
  have hnext : afterHeader (pixelCount s) = .finish ∧ pixelCount s = 0 ∨
      afterHeader (pixelCount s) = .pixels ∧ 0 < pixelCount s := by
    unfold afterHeader
    split
    · exact .inl ⟨rfl, ‹_›⟩
    · exact .inr ⟨rfl, by omega⟩
  obtain ⟨hnext, hcount⟩ | ⟨hnext, hcount⟩ := hnext <;> rw [hnext]
  · exact {
      run_le := fun _ => by simp [hrun]
      header := nofun
      pixels := nofun
      finish := fun _ => hpos.trans hcount.symm
      stream := fun _ => by simp [headerBytes_length, hpos, houtLen, hrun]
      done := nofun }
  · exact {
      run_le := fun _ => by simp [hrun]
      header := nofun
      pixels := fun _ => Nat.lt_of_le_of_lt (Nat.le_of_eq hpos) hcount
      finish := nofun
      stream := fun _ => by simp [headerBytes_length, hpos, houtLen, hrun]
      done := nofun }

/-- A pixel step: one pixel more against the bytes of `PixelEmits.length`. -/
theorem EncProgress.pixel_step {s : State} (hs : EncProgress s) (hphase : s.enc.phase = .pixels)
    (hpos : s.enc.pos < pixelCount s) {v : List Byte} {r : Nat} {c : Cache}
    (hv : PixelEmits s (readPin s s.enc.pos) v r c) : EncProgress (emit v (afterPixel s r c)) := by
  have hlength := hv.length
  have hrun := hs.run_le (by rw [hphase]; nofun)
  obtain ⟨hlo, hmin, hmax⟩ := hs.stream (.inl hphase)
  have hrun' : r ≤ 61 := by omega
  have hstream : 14 ≤ s.enc.outLen + v.length ∧ s.enc.pos + 1 ≤ 62 * (s.enc.outLen + v.length - 14) + r ∧
      s.enc.outLen + v.length + (if r = 0 then 0 else 1) ≤ 14 + 5 * (s.enc.pos + 1) := by
    by_cases hflush : s.enc.run = 0 <;> simp only [hflush, if_true, if_false] at hlength hmax <;> split <;> omega
  by_cases hlast : s.enc.pos + 1 = pixelCount s
  · simp only [afterPixel, if_pos hlast]
    exact {
      run_le := fun _ => hrun'
      header := nofun
      pixels := nofun
      finish := fun _ => hlast
      stream := fun _ => hstream
      done := nofun }
  · simp only [afterPixel, if_neg hlast]
    exact {
      run_le := fun _ => hrun'
      header := nofun
      pixels := fun _ => show s.enc.pos + 1 < pixelCount s by omega
      finish := nofun
      stream := fun _ => hstream
      done := nofun }

/-- The finish step: the flush of a run and the 8 bytes of the marker. -/
theorem EncProgress.finish_step {s : State} (hs : EncProgress s) (hphase : s.enc.phase = .finish) :
    EncProgress (emit (runBytes s.enc.run ++ marker) { s with enc := { s.enc with run := 0, phase := .done } }) := by
  have hrun := hs.run_le (by rw [hphase]; nofun)
  obtain ⟨hlo, hmin, hmax⟩ := hs.stream (.inr hphase)
  have hlength : (runBytes s.enc.run ++ marker).length = (if s.enc.run = 0 then 0 else 1) + 8 := by
    rw [List.length_append, runBytes_length]
    rfl
  have hdone : 22 ≤ s.enc.outLen + (runBytes s.enc.run ++ marker).length ∧
      s.enc.pos ≤ 62 * (s.enc.outLen + (runBytes s.enc.run ++ marker).length - 22) ∧
      s.enc.outLen + (runBytes s.enc.run ++ marker).length ≤ 22 + 5 * s.enc.pos := by
    rw [hlength]
    by_cases hflush : s.enc.run = 0 <;> simp only [hflush, if_true, if_false] at hmax ⊢ <;> omega
  exact {
    run_le := fun _ => Nat.zero_le _
    header := nofun
    pixels := nofun
    finish := nofun
    stream := nofun
    done := fun _ => ⟨rfl, hdone⟩ }

/-- Every turn of the encode engine keeps the progress clauses. -/
theorem EncProgress.turn {s t : State} (hs : EncProgress s) (h : EncTurnTo s t) : EncProgress t := by
  cases h with
  | rest => exact hs
  | header hphase => exact hs.header_step hphase
  | pixel hphase hpos hv => exact hs.pixel_step hphase hpos hv
  | finish hphase => exact hs.finish_step hphase

theorem encProgress_encRun (s : State) (k : Nat) : EncProgress (encRun k (encStart s)) := by
  induction k with
  | zero => exact encProgress_encStart s
  | succ k ih => rw [encRun_succ]; exact ih.turn (encTurnTo_encTurn _)

/-! The steps of an encode from START -/

/-- The encode of `s` after its header step and `k` pixel steps. -/
def afterPixels (s : State) (k : Nat) : State := encRun (k + 1) (encStart s)

theorem afterPixels_zero (s : State) :
    afterPixels s 0 = emit (headerBytes s.enc.width s.enc.height s.enc.channels s.enc.colorspace)
      { encStart s with enc := { (encStart s).enc with phase := afterHeader (pixelCount s) } } :=
  encHeaderStep_eq (encStart s)

theorem afterPixels_succ (s : State) (k : Nat) : afterPixels s (k + 1) = encTurn (afterPixels s k) :=
  encRun_succ (k + 1) (encStart s)

/-- An encode reads the pixels and the count that stood there at START. -/
theorem afterPixels_inputs (s : State) (k : Nat) :
    (afterPixels s k).pin = s.pin ∧ pixelCount (afterPixels s k) = pixelCount s := by
  induction k with
  | zero => exact ⟨rfl, rfl⟩
  | succ k ih =>
    rw [afterPixels_succ, (encTurnTo_encTurn (afterPixels s k)).frame]
    exact ih

theorem readPin_afterPixels (s : State) (k i : Nat) : readPin (afterPixels s k) i = readPin s i := by
  rw [readPin, (afterPixels_inputs s k).1]
  rfl

/-- After `k` pixel steps the position is `k`, in PIXELS until the last one and in FINISH then (R162, R171). -/
theorem afterPixels_position (s : State) {k : Nat} (hk : k ≤ pixelCount s) :
    (afterPixels s k).enc.pos = k ∧
      (afterPixels s k).enc.phase = if k = pixelCount s then .finish else .pixels := by
  induction k with
  | zero =>
    refine ⟨rfl, ?_⟩
    show afterHeader (pixelCount s) = _
    exact ite_congr (propext eq_comm) (fun _ => rfl) fun _ => rfl
  | succ k ih =>
    obtain ⟨hpos, hphase⟩ := ih (by omega)
    rw [if_neg (by omega)] at hphase
    have hcount := (afterPixels_inputs s k).2
    obtain ⟨v, r, c, -, hturn⟩ := encTurn_of_pixel hphase (by omega)
    rw [afterPixels_succ, hturn]
    refine ⟨congrArg (· + 1) hpos, ?_⟩
    show (if (afterPixels s k).enc.pos + 1 = pixelCount (afterPixels s k) then EncPhase.finish else .pixels) = _
    rw [hpos, hcount]

theorem afterPixels_phase_of_lt (s : State) {k : Nat} (hk : k < pixelCount s) :
    (afterPixels s k).enc.phase = .pixels := by
  rw [(afterPixels_position s (Nat.le_of_lt hk)).2, if_neg (by omega)]

/-- The pixel step at position `k`, on the `k`-th pixel of PIN. -/
theorem afterPixels_step (s : State) {k : Nat} (hk : k < pixelCount s) :
    ∃ v r c, PixelEmits (afterPixels s k) (readPin s k) v r c ∧
      afterPixels s (k + 1) = emit v (afterPixel (afterPixels s k) r c) := by
  obtain ⟨hpos, -⟩ := afterPixels_position s (Nat.le_of_lt hk)
  have hcount := (afterPixels_inputs s k).2
  obtain ⟨v, r, c, hv, hturn⟩ := encTurn_of_pixel (afterPixels_phase_of_lt s hk) (by omega)
  rw [hpos, readPin_afterPixels] at hv
  exact ⟨v, r, c, hv, (afterPixels_succ s k).trans hturn⟩

/-- The end of an encode: the flush and the marker after the last pixel step. -/
theorem encRun_end (s : State) :
    encRun (pixelCount s + 2) (encStart s) =
      emit (runBytes (afterPixels s (pixelCount s)).enc.run ++ marker)
        { afterPixels s (pixelCount s) with
          enc := { (afterPixels s (pixelCount s)).enc with run := 0, phase := .done } } := by
  have hphase := (afterPixels_position s (Nat.le_refl _)).2
  rw [if_pos rfl] at hphase
  exact (encRun_succ _ _).trans (encTurn_of_finish_eq hphase)

/-- Settles O35: HEADER, then a phase for every position, and DONE after the finish step. -/
theorem encodeEndsAfterItsPixelsAndTwoSteps : Obligations.EncodeEndsAfterItsPixelsAndTwoSteps := by
  intro s k hk
  by_cases hend : k = pixelCount s + 2
  · rw [hend, encRun_end]
    exact iff_of_true rfl rfl
  · refine iff_of_false ?_ hend
    cases k with
    | zero => nofun
    | succ k =>
      have hphase := (afterPixels_position s (show k ≤ pixelCount s by omega)).2
      rw [afterPixels] at hphase
      rw [hphase]
      split <;> nofun

/-- Settles O36: the progress clauses at DONE, where the position is the count. -/
theorem frameLengthIsWithinItsBounds : Obligations.FrameLengthIsWithinItsBounds := by
  intro s
  have hprogress := encProgress_encRun s (pixelCount s + 2)
  have hpos : (encRun (pixelCount s + 2) (encStart s)).enc.pos = pixelCount s := by
    rw [encRun_end]
    exact (afterPixels_position s (Nat.le_refl _)).1
  obtain ⟨-, hlo, hmin, hmax⟩ := hprogress.done (by rw [encRun_end]; rfl)
  rw [hpos] at hmin hmax
  omega

end Sys2Proof.Machine
end

section
/-! SUPPORT. The host's actions (R35 to R62, R237, R241): START, accesses to the map, reads and writes of the buffers,
power-on and the observations, and the statements settled from them. -/
namespace Sys2Proof.Machine

/-! START -/

theorem hostAct_write_encCtrl (v : Word) (s : State) :
    hostAct (.writeReg 0x00 4 v) s = if v.getLsbD 0 then hostStartEnc s else .next s :=
  hostAct_writeReg (r := .encCtrl) rfl v s

theorem hostAct_write_decCtrl (v : Word) (s : State) :
    hostAct (.writeReg 0x20 4 v) s = if v.getLsbD 0 then hostStartDec s else .next s :=
  hostAct_writeReg (r := .decCtrl) rfl v s

theorem hostStartEnc_of_busy {s : State} (h : encBusy s = true) : hostStartEnc s = .next s := if_pos h

theorem hostStartDec_of_busy {s : State} (h : decBusy s = true) : hostStartDec s = .next s := if_pos h

theorem hostStartEnc_of_idle {s : State} (h : encBusy s = false) :
    hostStartEnc s = if encPremises s then .next (encStart s) else .refused .launchPremise := by
  rw [hostStartEnc, h]; rfl

theorem hostStartDec_of_idle {s : State} (h : decBusy s = false) :
    hostStartDec s = if decPremises s then .next (decStart s) else .refused .launchPremise := by
  rw [hostStartDec, h]; rfl

/-- The launch premises of an encode, as R265 says them. -/
theorem encPremises_iff (s : State) : encPremises s = true ↔
    22 + 5 * pixelCount s < 2 ^ Config.countW ∧ 22 + 5 * pixelCount s ≤ s.outRoom := by
  simp only [encPremises, Bool.and_eq_true, decide_eq_true_eq]

/-- Settles O38: each engine's START by its bit, by BUSY and by the premises. -/
theorem startSeedsAnEngineThatIsNotBusy : Obligations.StartSeedsAnEngineThatIsNotBusy := by
  intro s v
  rw [hostAct_write_encCtrl, hostAct_write_decCtrl]
  refine ⟨fun h => ?_, fun hbit hidle => ?_, fun h => ?_, fun hbit hidle => ?_, rfl, rfl⟩
  · obtain hbit | hbusy := h
    · rw [hbit]; rfl
    · rw [hostStartEnc_of_busy hbusy, ite_self]
  · rw [if_pos hbit, hostStartEnc_of_idle hidle]
    refine ⟨fun hok => ⟨seedCache, cacheRead_seedCache, ?_⟩, fun hbad => ?_⟩
    · rw [if_pos ((encPremises_iff s).mpr hok)]; rfl
    · rw [if_neg (mt (encPremises_iff s).mp hbad)]
  · obtain hbit | hbusy := h
    · rw [hbit]; rfl
    · rw [hostStartDec_of_busy hbusy, ite_self]
  · rw [if_pos hbit, hostStartDec_of_idle hidle]
    refine ⟨fun hok => ⟨seedCache, cacheRead_seedCache, ?_⟩, fun hbad => ?_⟩
    · rw [if_pos ((decPremises_iff s).mpr hok)]; rfl
    · rw [if_neg (mt (decPremises_iff s).mp hbad)]

/-! Register reads -/

theorem hostReadReg_of_view {r : HostReg} {s : State} {w : Word} (hview : regView r s = some w)
    (hresult : s.dec.phase = .doneErr → noResultAtError r = false) :
    hostReadReg r s = .next (replyWith (.word w) s) := by
  have hshown : ¬ (noResultAtError r && decide (s.dec.phase = .doneErr)) = true := by
    rw [Bool.and_eq_true, decide_eq_true_eq]
    rintro ⟨hno, hphase⟩
    rw [hresult hphase] at hno
    cases hno
  rw [hostReadReg, if_neg hshown, hview]

theorem hostReadReg_of_no_result {r : HostReg} {s : State} (hphase : s.dec.phase = .doneErr)
    (hno : noResultAtError r = true) :
    hostReadReg r s = .next (replyWith (.word (freeView r s.draws)) (drawn s)) := by
  rw [hostReadReg, hno, hphase]; rfl

/-- A whole-word access reaches a register whose view is no result at DONE_ERR exactly at four offsets (R233). -/
theorem noResult_of_accessedReg {offset : Nat} {r : HostReg} (h : accessedReg offset 4 = some r)
    (hoffset : offset ∉ [0x2C, 0x30, 0x34, 0x38]) : noResultAtError r = false := by
  have hreg : regAt offset = some r := h
  revert hoffset
  unfold regAt at hreg
  split at hreg <;> cases hreg <;> decide

/-! Buffer reads -/

theorem hostReadOut_of_idle {s : State} (h : encBusy s = false) (a : Nat) :
    hostReadOut a s = replyWith (.byte (readOut s a)) s := by
  rw [hostReadOut, h]; rfl

theorem hostReadOut_of_busy {s : State} (h : encBusy s = true) (a : Nat) :
    hostReadOut a s = replyWith (.byte (Config.freeByte s.draws)) (drawn s) := if_pos h

theorem poutNoResult_iff (s : State) : poutNoResult s = true ↔ decBusy s = true ∨ s.dec.phase = .doneErr := by
  simp only [poutNoResult, Bool.or_eq_true, decide_eq_true_eq]

/-- Settles O43: each read answers one reply, and draws a free value exactly where there is no result. -/
theorem readsReturnWhatIsThereAndChangeNothing : Obligations.ReadsReturnWhatIsThereAndChangeNothing := by
  refine ⟨fun s r offset w hreg hview hoffset => ?_, fun s hphase offset hoffset => ?_, fun s a => ⟨rfl, rfl⟩,
    fun s a hidle => ?_, fun s a hbusy => ⟨Config.freeByte s.draws, ?_⟩, fun s a hidle hphase => ?_, fun s a hno => ?_⟩
  · rw [hostAct_readReg hreg]
    exact hostReadReg_of_view hview fun hphase => noResult_of_accessedReg hreg (hoffset hphase)
  · simp only [List.mem_cons, List.not_mem_nil, or_false] at hoffset
    obtain rfl | rfl | rfl | rfl := hoffset
    · exact ⟨_, (hostAct_readReg (r := .decWidth) rfl s).trans (hostReadReg_of_no_result hphase rfl)⟩
    · exact ⟨_, (hostAct_readReg (r := .decHeight) rfl s).trans (hostReadReg_of_no_result hphase rfl)⟩
    · exact ⟨_, (hostAct_readReg (r := .decFormat) rfl s).trans (hostReadReg_of_no_result hphase rfl)⟩
    · exact ⟨_, (hostAct_readReg (r := .decPixCount) rfl s).trans (hostReadReg_of_no_result hphase rfl)⟩
  · exact congrArg Host.Outcome.next (hostReadOut_of_idle hidle a)
  · exact congrArg Host.Outcome.next (hostReadOut_of_busy hbusy a)
  · have hresult : ¬ poutNoResult s = true := by
      rw [poutNoResult_iff, hidle]
      simpa using hphase
    exact ⟨congrArg Host.Outcome.next (if_neg hresult), congrArg Host.Outcome.next (if_neg hresult)⟩
  · rw [← poutNoResult_iff] at hno
    exact ⟨⟨_, congrArg Host.Outcome.next (if_pos hno)⟩, ⟨_, congrArg Host.Outcome.next (if_pos hno)⟩⟩

/-! The map -/

/-- The registers of the map stand on the word boundaries below 0x40 (R35). -/
theorem regAt_ne_none_iff (offset : Nat) : regAt offset ≠ none ↔ offset % 4 = 0 ∧ offset < 0x40 := by
  constructor
  · obtain hnone | ⟨r, hr⟩ := (regAt offset).eq_none_or_eq_some
    · exact fun h => absurd hnone h
    · intro _
      unfold regAt at hr
      split at hr <;> cases hr <;> decide
  · rintro ⟨halign, hlt⟩
    have words : ∀ k : Fin 16, regAt (4 * k.val) ≠ none := by decide
    have hword := words ⟨offset / 4, by omega⟩
    rwa [show 4 * (offset / 4) = offset by omega] at hword

theorem accessedReg_ne_none_iff (offset size : Nat) :
    accessedReg offset size ≠ none ↔ size = 4 ∧ offset % 4 = 0 ∧ offset < 0x40 := by
  unfold accessedReg
  split
  next hsize => rw [regAt_ne_none_iff]; exact (and_iff_right hsize).symm
  next hsize => exact iff_of_false (fun h => h rfl) fun h => hsize h.1

/-- Settles O44: the table, the writes that change nothing, and the refusal of every access that reaches no register. -/
theorem onlyAlignedWordsBelow0x40HoldRegisters : Obligations.OnlyAlignedWordsBelow0x40HoldRegisters := by
  refine ⟨by decide, fun s v offset hoffset => ?_, fun s offset size v => ⟨(accessedReg_ne_none_iff ..).symm, fun h => ?_⟩⟩
  · simp only [List.mem_cons, List.not_mem_nil, or_false] at hoffset
    obtain rfl | rfl | rfl | rfl | rfl | rfl | rfl | rfl | rfl := hoffset <;> rfl
  · rw [← accessedReg_ne_none_iff, Classical.not_not] at h
    exact ⟨by simp only [hostAct, h], by simp only [hostAct, h]⟩

/-! Power-on -/

/-- Whatever stands in the buffers, an engine pair at its reset state is as power-on leaves it (R48). -/
theorem afterPowerOn_of_reset {s : State} (henc : s.enc = EncEngine.reset) (hdec : s.dec = DecEngine.reset) :
    AfterPowerOn s where
  views r := by
    cases r <;> simp only [regView, offsetShown, henc, hdec] <;> rfl
  encIdle := by rw [henc]; rfl
  decIdle := by rw [hdec]; rfl
  noError := by rw [hdec]; exact ⟨rfl, rfl⟩
  encCounts := by rw [henc]; exact ⟨rfl, rfl⟩
  decCounts := by rw [hdec]; exact ⟨rfl, rfl⟩
  header := by rw [hdec]; exact ⟨rfl, rfl, rfl, rfl⟩
  config := by rw [henc, hdec]; exact ⟨rfl, rfl, rfl, rfl, rfl, rfl⟩

/-- Settles O45: both states have the engines of the reset. -/
theorem everyRegisterReadsZeroAfterReset : Obligations.EveryRegisterReadsZeroAfterReset :=
  ⟨afterPowerOn_of_reset rfl rfl, fun s => ⟨powerOnReset s, rfl, afterPowerOn_of_reset rfl rfl, rfl⟩⟩

/-! Buffer writes -/

theorem unlessBusy_of_busy {busy : Bool} (h : busy = true) (t : State) : unlessBusy busy t = .fault .bufferRace :=
  if_pos h

theorem unlessBusy_of_idle {busy : Bool} (h : busy = false) (t : State) : unlessBusy busy t = .next t := by
  rw [unlessBusy, h]; rfl

/-- A recorded element with a default for what is not recorded, after one write: how the four buffers read (R50). -/
theorem getD_read_write {α : Type} (m : Memory α) (a x : Nat) (v : α) (d : Nat → α) :
    (Memory.read (Memory.write m a v) x).getD (d x) = if x = a then v else (Memory.read m x).getD (d x) := by
  rw [Memory.read_write]
  split <;> rfl

/-- Settles O46: BUSY makes each write a race, and otherwise it lands by `getD_read_write`. -/
theorem hostWritesRaceOnlyWithABusyEngine : Obligations.HostWritesRaceOnlyWithABusyEngine := by
  intro s a b p
  refine ⟨fun hbusy => ?_, fun hbusy => ?_, fun hidle => ?_, fun hidle => ?_⟩
  · exact ⟨unlessBusy_of_busy hbusy _, unlessBusy_of_busy hbusy _, unlessBusy_of_busy hbusy _⟩
  · exact ⟨unlessBusy_of_busy hbusy _, unlessBusy_of_busy hbusy _, unlessBusy_of_busy hbusy _,
      unlessBusy_of_busy hbusy _⟩
  · exact ⟨⟨_, unlessBusy_of_idle hidle _, rfl, fun x => getD_read_write s.inBuf a x b Config.unwrittenIn⟩,
      ⟨_, unlessBusy_of_idle hidle _, rfl, fun x => getD_read_write s.pout a x p Config.unwrittenPout⟩,
      unlessBusy_of_idle hidle _⟩
  · exact ⟨⟨_, unlessBusy_of_idle hidle _, rfl, fun x => getD_read_write s.pin a x p Config.unwrittenPin⟩,
      ⟨_, unlessBusy_of_idle hidle _, rfl, fun x => getD_read_write s.outBuf a x b Config.unwrittenOut⟩,
      unlessBusy_of_idle hidle _⟩

/-- A pixel seen as four bytes, after one of them is replaced (R53). -/
theorem pixelByte_setPixelByte (p : Pixel) {k j : Nat} (hk : k < 4) (hj : j < 4) (v : Byte) :
    pixelByte (setPixelByte p k v) j = if j = k then v else pixelByte p j := by
  have hk' : k = 0 ∨ k = 1 ∨ k = 2 ∨ k = 3 := by omega
  have hj' : j = 0 ∨ j = 1 ∨ j = 2 ∨ j = 3 := by omega
  obtain rfl | rfl | rfl | rfl := hk' <;> obtain rfl | rfl | rfl | rfl := hj' <;> rfl

/-- Settles O47: another pixel is as before, and of the pixel itself one byte is replaced. -/
theorem byteWriteToPinReplacesOneChannel : Obligations.ByteWriteToPinReplacesOneChannel := by
  intro s a v hidle
  refine ⟨_, unlessBusy_of_idle hidle _, rfl, fun x => ?_⟩
  have hread := getD_read_write s.pin (a / 4) (x / 4) (setPixelByte (readPin s (a / 4)) (a % 4) v) Config.unwrittenPin
  refine (congrArg (pixelByte · (x % 4)) hread).trans ?_
  by_cases hpixel : x / 4 = a / 4
  · rw [if_pos hpixel, pixelByte_setPixelByte _ (Nat.mod_lt _ (by decide)) (Nat.mod_lt _ (by decide)), ← hpixel]
    exact ite_congr (propext (by omega)) (fun _ => rfl) fun _ => rfl
  · rw [if_neg hpixel, if_neg fun h => hpixel (by rw [h])]
    rfl

/-! Observations -/

/-- Settles O48: the frame and the pixels are mapped from the counts, and a failed decode shows one constructor. -/
theorem failedDecodeShowsOnlyItsError : Obligations.FailedDecodeShowsOnlyItsError := by
  have herror : ∀ s : State, s.dec.phase = .doneErr → decObservation s = some (.error s.dec.err) := fun s h => by
    rw [decObservation, if_neg (by rw [h]; nofun), if_pos h]
  refine ⟨fun s => ⟨fun h => ⟨outFrame s, ?_, ?_, fun k hk => ?_⟩, fun h => if_neg h,
    fun h => ⟨outPixels s, ?_, ?_, fun k hk => ?_⟩, herror s, fun hok herr => ?_⟩, fun s t hs ht => ?_⟩
  · exact if_pos h
  · rw [outFrame, List.length_map, List.length_range]
  · simp only [outFrame, List.getElem_map, List.getElem_range]
  · exact if_pos h
  · rw [outPixels, List.length_map, List.length_range]
  · simp only [outPixels, List.getElem_map, List.getElem_range]
  · rw [decObservation, if_neg hok, if_neg herr]
  · rw [herror s hs, herror t ht, Option.some.injEq, DecResult.error.injEq]

end Sys2Proof.Machine
end

section
/-! SUPPORT. The whole machine (R10, R20, R52, R242, R244): the one inversion of a host's action and of a step, what the two
engines share, who can stop the machine, and the statements settled from them. -/
namespace Sys2Proof.Machine

/-! The two engines -/

/-- A turn of the encode engine only appends to OUT: OUTLEN does not fall, and what lies outside the appended bytes reads
as before (R52). -/
theorem encTurn_appends (s : State) :
    s.enc.outLen ≤ (encTurn s).enc.outLen ∧
      ∀ a, a < s.enc.outLen ∨ (encTurn s).enc.outLen ≤ a → readOut (encTurn s) a = readOut s a := by
  obtain ⟨v, e, he, hemit⟩ := encTurn_eq_emit s
  have hturn := hemit s rfl rfl
  have hlen : (encTurn s).enc.outLen = s.enc.outLen + v.length := by rw [hturn, emit_enc, ← he]
  refine ⟨by omega, fun a ha => ?_⟩
  rw [hlen] at ha
  rw [hturn]
  exact (bytesAppended_emit v s he).2 a ha

/-- Settles O52: each turn is one emission, or one `Put`, after an update of its own engine. -/
theorem enginesShareNothingAndOnlyAppend : Obligations.EnginesShareNothingAndOnlyAppend := by
  refine ⟨fun s => ⟨?_, encTurn_appends s⟩, fun s t hturn => ?_⟩
  · obtain ⟨v, e, -, hemit⟩ := encTurn_eq_emit s
    rw [hemit s rfl rfl]
    rfl
  · obtain ⟨d, p, n, hd, hput⟩ := decTurn_eq_put s
    cases (hput s rfl rfl).symm.trans hturn
    refine ⟨rfl, ?_, fun i hi => ?_⟩
    · rw [put_dec, hd]
      exact Nat.le_add_right _ _
    · rw [put_dec] at hi
      dsimp only at hi
      rw [readPout_put, if_neg (by dsimp only; omega)]
      rfl

/-- Settles O53: the emission and the `Put` are fixed by what the other engine leaves alone, and they commute. -/
theorem engineStepsCommute : Obligations.EngineStepsCommute := by
  intro s t hturn
  obtain ⟨v, e, -, hemit⟩ := encTurn_eq_emit s
  obtain ⟨d, p, n, -, hput⟩ := decTurn_eq_put s
  cases (hput s rfl rfl).symm.trans hturn
  have henc : encTurn s = emit v { s with enc := e } := hemit s rfl rfl
  have henc' : encTurn (put p n { s with dec := d }) = emit v { put p n { s with dec := d } with enc := e } :=
    hemit _ rfl rfl
  rw [henc, henc']
  exact hput _ rfl rfl

theorem DecTurnTo.eq_of_not_busy {s t : State} (h : DecTurnTo s t) (hidle : decBusy s = false) : t = s := by
  cases h with
  | rest => rfl
  | headerError hphase | headerOk hphase | opcode hphase | loopEnd hphase | markerGood hphase | markerBad hphase =>
    simp [decBusy, hphase] at hidle

theorem EncTurnTo.eq_of_not_busy {s t : State} (h : EncTurnTo s t) (hidle : encBusy s = false) : t = s := by
  cases h with
  | rest => rfl
  | header hphase | pixel hphase | finish hphase => simp [encBusy, hphase] at hidle

/-- No turn of the decode engine changes its configuration, or anything outside the engine and POUT (R45, R54). -/
theorem DecTurnTo.frame {s t : State} (h : DecTurnTo s t) :
    t = { s with pout := t.pout, dec := { t.dec with inLen := s.dec.inLen } } := by
  cases h <;> rfl

/-! An action of the host -/

/-- Everything an action of the host that completes can do. Each buffer, and each configuration register, changes only
while its engine is not BUSY, and START is accepted only then (R45, R62, R265). -/
inductive HostActTo (s : State) : HostAction → State → Prop
  | reply (act : HostAction) (rs : List Reply) (ds : Nat) : HostActTo s act { s with replies := rs, draws := ds }
  | configureEnc (act : HostAction) (hidle : encBusy s = false) (w h : Word) (ch : ChannelTag) (cs : ColorTag)
      (n : Word) : HostActTo s act { s with enc := { s.enc with
        width := w, height := h, channels := ch, colorspace := cs, count := n } }
  | configureDec (act : HostAction) (hidle : decBusy s = false) (n : Word) :
      HostActTo s act { s with dec := { s.dec with inLen := n } }
  | startEnc (v : Word) (hbit : v.getLsbD 0 = true) (hidle : encBusy s = false) (hok : encPremises s = true) :
      HostActTo s (.writeReg 0x00 4 v) (encStart s)
  | startDec (v : Word) (hbit : v.getLsbD 0 = true) (hidle : decBusy s = false) (hok : decPremises s = true) :
      HostActTo s (.writeReg 0x20 4 v) (decStart s)
  | encBuffers (act : HostAction) (hidle : encBusy s = false) (pin : Memory Pixel) (out : Memory Byte) (room : Nat)
      (hpin : Memory.wf s.pin = true → Memory.wf pin = true)
      (hout : Memory.wf s.outBuf = true → Memory.wf out = true) :
      HostActTo s act { s with pin := pin, outBuf := out, outRoom := room }
  | decBuffers (act : HostAction) (hidle : decBusy s = false) (inp : Memory Byte) (pout : Memory Pixel) (room : Nat)
      (hin : Memory.wf s.inBuf = true → Memory.wf inp = true)
      (hpout : Memory.wf s.pout = true → Memory.wf pout = true) :
      HostActTo s act { s with inBuf := inp, pout := pout, poutRoom := room }
  | powerOn : HostActTo s .powerOn (powerOnReset s)

theorem HostActTo.same (act : HostAction) (s : State) : HostActTo s act s := .reply act s.replies s.draws

theorem HostActTo.of_configureEnc {act : HostAction} {s t : State} {w h : Word} {ch : ChannelTag} {cs : ColorTag}
    {n : Word} (heq : Machine.configureEnc { s.enc with
      width := w, height := h, channels := ch, colorspace := cs, count := n } s = .next t) : HostActTo s act t := by
  cases hbusy : encBusy s with
  | true => cases (configureEnc_of_busy hbusy _).symm.trans heq; exact .same act s
  | false => cases (configureEnc_of_not_busy hbusy _).symm.trans heq; exact .configureEnc act hbusy w h ch cs n

theorem HostActTo.of_configureDec {act : HostAction} {s t : State} {n : Word}
    (heq : Machine.configureDec { s.dec with inLen := n } s = .next t) : HostActTo s act t := by
  cases hbusy : decBusy s with
  | true => cases (configureDec_of_busy hbusy _).symm.trans heq; exact .same act s
  | false => cases (configureDec_of_not_busy hbusy _).symm.trans heq; exact .configureDec act hbusy n

theorem HostActTo.of_startEnc {s t : State} {v : Word}
    (heq : (if v.getLsbD 0 then hostStartEnc s else .next s) = .next t) : HostActTo s (.writeReg 0x00 4 v) t := by
  cases hbit : v.getLsbD 0 with
  | false => rw [hbit] at heq; cases heq; exact .same _ s
  | true =>
    rw [if_pos hbit] at heq
    cases hbusy : encBusy s with
    | true => cases (hostStartEnc_of_busy hbusy).symm.trans heq; exact .same _ s
    | false =>
      rw [hostStartEnc_of_idle hbusy] at heq
      split at heq <;> cases heq
      exact .startEnc v hbit hbusy ‹_›

theorem HostActTo.of_startDec {s t : State} {v : Word}
    (heq : (if v.getLsbD 0 then hostStartDec s else .next s) = .next t) : HostActTo s (.writeReg 0x20 4 v) t := by
  cases hbit : v.getLsbD 0 with
  | false => rw [hbit] at heq; cases heq; exact .same _ s
  | true =>
    rw [if_pos hbit] at heq
    cases hbusy : decBusy s with
    | true => cases (hostStartDec_of_busy hbusy).symm.trans heq; exact .same _ s
    | false =>
      rw [hostStartDec_of_idle hbusy] at heq
      split at heq <;> cases heq
      exact .startDec v hbit hbusy ‹_›

/-- The offset of a register of the map (R35). -/
def HostReg.offset : HostReg → Nat
  | .encCtrl => 0x00
  | .encStatus => 0x04
  | .encWidth => 0x08
  | .encHeight => 0x0C
  | .encFormat => 0x10
  | .encCount => 0x14
  | .encOutLen => 0x18
  | .encPos => 0x1C
  | .decCtrl => 0x20
  | .decStatus => 0x24
  | .decInLen => 0x28
  | .decWidth => 0x2C
  | .decHeight => 0x30
  | .decFormat => 0x34
  | .decPixCount => 0x38
  | .decOffset => 0x3C

/-- A register is reached at its own offset only, by a whole word (R35). -/
theorem offset_of_accessedReg {offset size : Nat} {r : HostReg} (h : accessedReg offset size = some r) :
    offset = r.offset ∧ size = 4 := by
  unfold accessedReg at h
  split at h
  next hsize =>
    unfold regAt at h
    split at h <;> cases h <;> exact ⟨rfl, hsize⟩
  next => cases h

theorem HostActTo.of_writeReg {s t : State} {r : HostReg} {offset size : Nat} {v : Word}
    (hreg : accessedReg offset size = some r) (heq : hostWriteReg r v s = .next t) :
    HostActTo s (.writeReg offset size v) t := by
  cases r with
  | encCtrl =>
    obtain ⟨rfl, rfl⟩ := offset_of_accessedReg hreg
    exact .of_startEnc heq
  | decCtrl =>
    obtain ⟨rfl, rfl⟩ := offset_of_accessedReg hreg
    exact .of_startDec heq
  | encWidth | encHeight | encFormat | encCount => exact .of_configureEnc heq
  | decInLen => exact .of_configureDec heq
  | encStatus | encOutLen | encPos | decStatus | decWidth | decHeight | decFormat | decPixCount | decOffset =>
    cases heq
    exact .same _ s

theorem HostActTo.of_readReg {act : HostAction} {s t : State} {r : HostReg} (heq : hostReadReg r s = .next t) :
    HostActTo s act t := by
  obtain ⟨-, -, rfl⟩ | ⟨-, w, -, rfl⟩ := hostReadReg_cases heq
  · exact .reply act _ _
  · exact .reply act _ _

/-- A write that is no race happened while the engine was not BUSY. -/
theorem eq_of_unlessBusy {busy : Bool} {t u : State} (h : unlessBusy busy t = .next u) : busy = false ∧ u = t := by
  cases busy with
  | true => cases h
  | false => cases h; exact ⟨rfl, rfl⟩

/-- The inversion of an action of the host. -/
theorem hostActTo_of_hostAct {act : HostAction} {s t : State} (heq : hostAct act s = .next t) :
    HostActTo s act t := by
  cases act with
  | readReg offset size =>
    cases hreg : accessedReg offset size with
    | none => simp only [hostAct, hreg] at heq; cases heq
    | some r => exact .of_readReg ((hostAct_readReg hreg s).symm.trans heq)
  | writeReg offset size v =>
    cases hreg : accessedReg offset size with
    | none => simp only [hostAct, hreg] at heq; cases heq
    | some r => exact .of_writeReg hreg ((hostAct_writeReg hreg v s).symm.trans heq)
  | writeIn a v =>
    obtain ⟨hidle, rfl⟩ := eq_of_unlessBusy heq
    exact .decBuffers _ hidle _ _ _ (Memory.write_wf a v) id
  | writePout i p =>
    obtain ⟨hidle, rfl⟩ := eq_of_unlessBusy heq
    exact .decBuffers _ hidle _ _ _ id (Memory.write_wf i p)
  | providePout room =>
    obtain ⟨hidle, rfl⟩ := eq_of_unlessBusy heq
    exact .decBuffers _ hidle _ _ _ id id
  | writeOut a v =>
    obtain ⟨hidle, rfl⟩ := eq_of_unlessBusy heq
    exact .encBuffers _ hidle _ _ _ id (Memory.write_wf a v)
  | writePin i p =>
    obtain ⟨hidle, rfl⟩ := eq_of_unlessBusy heq
    exact .encBuffers _ hidle _ _ _ (Memory.write_wf i p) id
  | writePinByte a v =>
    obtain ⟨hidle, rfl⟩ := eq_of_unlessBusy heq
    exact .encBuffers _ hidle _ _ _ (Memory.write_wf _ _) id
  | provideOut room =>
    obtain ⟨hidle, rfl⟩ := eq_of_unlessBusy heq
    exact .encBuffers _ hidle _ _ _ id id
  | readIn a => cases heq; exact .reply _ _ _
  | readPin i => cases heq; exact .reply _ _ _
  | readOut a =>
    cases heq
    unfold hostReadOut
    split <;> exact .reply _ _ _
  | readPout i =>
    cases heq
    unfold hostReadPout
    split <;> exact .reply _ _ _
  | readPoutByte a =>
    cases heq
    unfold hostReadPoutByte
    split <;> exact .reply _ _ _
  | powerOn => cases heq; exact .powerOn

/-! A step -/

/-- Everything a step that completes can be. -/
inductive StepTo (s : State) : State → Prop
  | enc {t : State} (h : EncTurnTo (takeTurn s) t) : StepTo s t
  | dec {t : State} (h : DecTurnTo (takeTurn s) t) : StepTo s t
  | hostIdle (hpending : s.pending = []) : StepTo s (takeTurn s)
  | host {act : HostAction} {rest : List HostAction} {t : State} (hpending : s.pending = act :: rest)
      (h : HostActTo { takeTurn s with pending := rest } act t) : StepTo s t

/-- The inversion of a step. -/
theorem stepTo_of_step {s t : State} (hstep : step s = .next t) : StepTo s t := by
  cases hagent : nextAgent s with
  | enc =>
    cases (step_of_enc hagent).symm.trans hstep
    exact .enc (encTurnTo_encTurn _)
  | dec => exact .dec (decTurnTo_of_decTurn ((step_of_dec hagent).symm.trans hstep))
  | host =>
    rw [step_of_host hagent] at hstep
    cases hpending : s.pending with
    | nil =>
      cases (hostTurn_of_nil (s := takeTurn s) hpending).symm.trans hstep
      exact .hostIdle hpending
    | cons act rest =>
      exact .host hpending
        (hostActTo_of_hostAct ((hostTurn_of_cons (s := takeTurn s) hpending).symm.trans hstep))

/-- Settles O56: the turns of both engines, and a host's turn with nothing pending, answer a next state. -/
theorem enginesNeverStopTheMachine : Obligations.EnginesNeverStopTheMachine := by
  intro s hstops
  cases hagent : nextAgent s with
  | enc => rw [step_of_enc hagent] at hstops; cases hstops
  | dec =>
    obtain ⟨t, hturn, -⟩ := exists_decTurnTo (takeTurn s)
    rw [step_of_dec hagent, hturn] at hstops
    cases hstops
  | host =>
    refine ⟨rfl, fun hpending => ?_⟩
    rw [step_of_host hagent, hostTurn_of_nil (s := takeTurn s) hpending] at hstops
    cases hstops

/-- Settles O55: of the steps only the host's touch an engine that is not BUSY, and of the host's actions only the
configuration writes, START and power-on. -/
theorem onlyStartOrPowerOnMovesAnIdleEngine : Obligations.OnlyStartOrPowerOnMovesAnIdleEngine := by
  intro s t hstep
  cases stepTo_of_step hstep with
  | enc h =>
    refine ⟨fun _ => .inl (by rw [h.frame]; rfl), fun hidle => .inl ?_⟩
    rw [h.eq_of_not_busy hidle]
    rfl
  | dec h =>
    refine ⟨fun hidle => .inl ?_, fun _ => .inl (by rw [h.frame]; rfl)⟩
    rw [h.eq_of_not_busy hidle]
    rfl
  | hostIdle => exact ⟨fun _ => .inl rfl, fun _ => .inl rfl⟩
  | host hpending h =>
    cases h with
    | reply | configureEnc | configureDec | encBuffers | decBuffers => exact ⟨fun _ => .inl rfl, fun _ => .inl rfl⟩
    | startEnc v hbit => exact ⟨fun _ => .inl rfl, fun _ => .inr (.inr ⟨v, _, hpending, hbit, rfl⟩)⟩
    | startDec v hbit => exact ⟨fun _ => .inr (.inr ⟨v, _, hpending, hbit, rfl⟩), fun _ => .inl rfl⟩
    | powerOn => exact ⟨fun _ => .inr (.inl ⟨_, hpending, rfl⟩), fun _ => .inr (.inl ⟨_, hpending, rfl⟩)⟩

/-! A platform -/

theorem platformStep_of_none {p : Platform} {k : Nat} (h : p[k]? = none) : platformStep k p = .next p := by
  rw [platformStep, h]

theorem platformStep_of_next {p : Platform} {k : Nat} {s t : State} (h : p[k]? = some s) (hstep : step s = .next t) :
    platformStep k p = .next (p.set k t) := by
  simp only [platformStep, h, hstep]

/-- Everything that a step of entry `k` which completes can be. -/
theorem platformStep_cases {p q : Platform} {k : Nat} (h : platformStep k p = .next q) :
    (p[k]? = none ∧ q = p) ∨ ∃ s t, p[k]? = some s ∧ step s = .next t ∧ q = p.set k t := by
  obtain hnone | ⟨s, hs⟩ := (p[k]?).eq_none_or_eq_some
  · cases (platformStep_of_none hnone).symm.trans h
    exact .inl ⟨hnone, rfl⟩
  · cases hstep : step s with
    | next t =>
      cases (platformStep_of_next hs hstep).symm.trans h
      exact .inr ⟨s, t, hs, hstep, rfl⟩
    | fault f => simp only [platformStep, hs, hstep] at h; cases h
    | refused r => simp only [platformStep, hs, hstep] at h; cases h

/-- Settles O57: a step replaces one entry of the list, by what `step` gives of that entry. -/
theorem instancesShareNothing : Obligations.InstancesShareNothing := by
  refine ⟨fun p k s hs => ⟨fun t hstep => ?_, fun f hstep => ?_, fun r hstep => ?_⟩, fun p q r j k hjk hq hr => ?_⟩
  · have hk : k < p.length := (List.getElem?_eq_some_iff.mp hs).1
    refine ⟨_, platformStep_of_next hs hstep, List.getElem?_set_self hk, List.length_set, fun j hj => ?_⟩
    exact List.getElem?_set_ne (Ne.symm hj)
  · simp only [platformStep, hs, hstep]
  · simp only [platformStep, hs, hstep]
  · obtain ⟨hk, rfl⟩ | ⟨s, s', hk, hs', rfl⟩ := platformStep_cases hq
    · obtain ⟨-, rfl⟩ | ⟨t, t', -, -, rfl⟩ := platformStep_cases hr
      · exact ⟨_, hr, platformStep_of_none hk⟩
      · exact ⟨_, hr, platformStep_of_none (by rw [List.getElem?_set_ne hjk, hk])⟩
    · have hk' : ∀ t', (p.set j t')[k]? = some s := fun t' => by rw [List.getElem?_set_ne hjk, hk]
      obtain ⟨hj, rfl⟩ | ⟨t, t', hj, ht', rfl⟩ := platformStep_cases hr
      · exact ⟨_, platformStep_of_none (by rw [List.getElem?_set_ne hjk.symm, hj]), hq⟩
      · refine ⟨_, platformStep_of_next (by rw [List.getElem?_set_ne hjk.symm, hj]) ht', ?_⟩
        rw [platformStep_of_next (hk' t') hs', List.set_comm _ _ hjk]

end Sys2Proof.Machine
end

section
/-! SUPPORT. The invariant of the machine: what each part of it depends on, that START establishes it, that turns, resets
and the host's actions keep it, and the three statements about it. -/
namespace Sys2Proof.Machine

/-! The encode engine's part -/

theorem EncInv.progress {s : State} (h : EncInv s) : EncProgress s where
  run_le := h.run_le
  header := h.header
  pixels := h.pixels
  finish := h.finish
  stream := h.stream
  done := h.done

/-- Once started, an encode has written at most 22 bytes and 5 for each pixel (R175). -/
theorem EncProgress.outLen_le {s : State} (h : EncProgress s) (hphase : s.enc.phase ≠ .idle) :
    s.enc.outLen ≤ 22 + 5 * s.enc.pos := by
  cases hp : s.enc.phase with
  | idle => exact absurd hp hphase
  | header => have := h.header hp; omega
  | pixels => have := h.stream (.inl hp); omega
  | finish => have := h.stream (.inr hp); omega
  | done => have := h.done hp; omega

theorem EncProgress.pos_le {s : State} (h : EncProgress s) (hbusy : encBusy s = true) :
    s.enc.pos ≤ pixelCount s := by
  cases hp : s.enc.phase with
  | idle => simp [encBusy, hp] at hbusy
  | header => have := h.header hp; omega
  | pixels => exact Nat.le_of_lt (h.pixels hp)
  | finish => exact Nat.le_of_eq (h.finish hp)
  | done => simp [encBusy, hp] at hbusy

/-- Progress, a direct-mapped cache and the launch premises make the invariant of a started engine. -/
theorem EncProgress.encInv {s : State} (h : EncProgress s) (hphase : s.enc.phase ≠ .idle)
    (hmapped : directMapped s.enc.cache) (hpos : s.enc.pos ≤ pixelCount s)
    (hfits : 22 + 5 * pixelCount s < 2 ^ Config.countW ∧ 22 + 5 * pixelCount s ≤ s.outRoom) : EncInv s where
  run_le := h.run_le
  mapped _ := hmapped
  fits _ := hfits
  header := h.header
  pixels := h.pixels
  finish := h.finish
  stream := h.stream
  done := h.done
  narrow := by
    have := h.outLen_le hphase
    omega

/-- The part says something of the engine and of OUT's room only. -/
theorem EncInv.congr {s t : State} (h : EncInv s) (henc : t.enc = s.enc) (hroom : t.outRoom = s.outRoom) :
    EncInv t := by
  cases t
  cases henc
  cases hroom
  exact ⟨h.run_le, h.mapped, h.fits, h.header, h.pixels, h.finish, h.stream, h.done, h.narrow⟩

/-- Of an engine that is not BUSY it says nothing of the configuration, nor of the room. -/
theorem EncInv.reconfigure {s t : State} (h : EncInv s) (hidle : encBusy s = false)
    (henc : t.enc = { s.enc with
      width := t.enc.width, height := t.enc.height, channels := t.enc.channels, colorspace := t.enc.colorspace,
      count := t.enc.count }) : EncInv t := by
  have hphase : t.enc.phase = .idle ∨ t.enc.phase = .done := by
    rw [henc]
    unfold encBusy at hidle
    cases hp : s.enc.phase with
    | idle => exact .inl rfl
    | done => exact .inr rfl
    | header | pixels | finish => rw [hp] at hidle; cases hidle
  have hbusy : encBusy t = false := by
    unfold encBusy
    obtain hp | hp := hphase <;> rw [hp]
  exact {
    run_le := by rw [henc]; exact h.run_le
    mapped := by rw [henc]; exact h.mapped
    fits := fun hb => by rw [hbusy] at hb; cases hb
    header := fun hp => by simp [hp] at hphase
    pixels := fun hp => by simp [hp] at hphase
    finish := fun hp => by simp [hp] at hphase
    stream := fun hp => by obtain hp | hp := hp <;> simp [hp] at hphase
    done := by rw [henc]; exact h.done
    narrow := by rw [henc]; exact h.narrow }

theorem encInv_of_reset {s : State} (h : s.enc = EncEngine.reset) : EncInv s := by
  have hidle : s.enc.phase = .idle := by rw [h]; rfl
  exact {
    run_le := fun hp => absurd hidle hp
    mapped := fun hp => absurd hidle hp
    fits := fun hbusy => by simp [encBusy, hidle] at hbusy
    header := fun hp => by rw [hidle] at hp; cases hp
    pixels := fun hp => by rw [hidle] at hp; cases hp
    finish := fun hp => by rw [hidle] at hp; cases hp
    stream := fun hp => by rw [hidle] at hp; obtain hp | hp := hp <;> cases hp
    done := fun hp => by rw [hidle] at hp; cases hp
    narrow := by rw [h]; decide }

theorem encInv_encStart {s : State} (hok : encPremises s = true) : EncInv (encStart s) :=
  (encProgress_encStart s).encInv nofun directMapped_seedCache (Nat.zero_le _) ((encPremises_iff s).mp hok)

theorem encBusy_of_phase {s : State} (h : s.enc.phase = .header ∨ s.enc.phase = .pixels ∨ s.enc.phase = .finish) :
    encBusy s = true := by
  unfold encBusy
  obtain h | h | h := h <;> rw [h]

/-- Every turn of the encode engine keeps its part. -/
theorem EncInv.turn {s t : State} (hs : EncInv s) (h : EncTurnTo s t) : EncInv t := by
  have hprogress := hs.progress.turn h
  cases h with
  | rest => exact hs
  | header hphase =>
    have hbusy := encBusy_of_phase (.inl hphase)
    refine hprogress.encInv ?_ (hs.mapped (by rw [hphase]; nofun)) (hs.progress.pos_le hbusy) (hs.fits hbusy)
    show afterHeader (pixelCount s) ≠ .idle
    unfold afterHeader
    split <;> nofun
  | pixel hphase hpos hv =>
    have hmapped := hs.mapped (by rw [hphase]; nofun)
    refine hprogress.encInv ?_ ?_ hpos (hs.fits (encBusy_of_phase (.inr (.inl hphase))))
    · show (if s.enc.pos + 1 = pixelCount s then EncPhase.finish else .pixels) ≠ .idle
      split <;> nofun
    · obtain hc | hc := hv.cache_eq
      · exact hc ▸ hmapped
      · exact hc ▸ directMapped_cacheStore _ hmapped
  | finish hphase =>
    have hbusy := encBusy_of_phase (.inr (.inr hphase))
    exact hprogress.encInv nofun (hs.mapped (by rw [hphase]; nofun)) (hs.progress.pos_le hbusy) (hs.fits hbusy)

/-! The decode engine's part -/

theorem pixelsToCome_of_stream {s : State} (h : s.dec.phase = .stream) :
    pixelsToCome s = streamPixels (readIn s) (inputLength s) (inputLength s) s.dec.offset := by
  rw [pixelsToCome, h]

theorem pixelsToCome_of_header {s : State} (h : s.dec.phase = .header) : pixelsToCome s = producedPixels s := by
  rw [pixelsToCome, h]

theorem pixelsToCome_of_not_busy {s : State} (h : decBusy s = false) : pixelsToCome s = 0 := by
  unfold pixelsToCome
  cases hp : s.dec.phase with
  | idle | marker | doneOk | doneErr => rfl
  | header | stream => simp [decBusy, hp] at h

theorem producedPixels_of_ok {s : State} {f : HeaderFields} (h : parseHeader (readIn s) (inputLength s) = .ok f) :
    producedPixels s = streamPixels (readIn s) (inputLength s) (inputLength s) 14 := by
  rw [producedPixels, h]

theorem producedPixels_of_error {s : State} {e : DecErr} (h : parseHeader (readIn s) (inputLength s) = .error e) :
    producedPixels s = 0 := by
  rw [producedPixels, h]

theorem inputLength_lt (s : State) : inputLength s < 2 ^ Config.countW := s.dec.inLen.isLt

theorem decBusy_of_phase {s : State} (h : s.dec.phase = .header ∨ s.dec.phase = .stream ∨ s.dec.phase = .marker) :
    decBusy s = true := by
  unfold decBusy
  obtain h | h | h := h <;> rw [h]

/-- The part says something of the engine, of IN and of POUT's room only. -/
theorem DecInv.congr {s t : State} (h : DecInv s) (hdec : t.dec = s.dec) (hin : t.inBuf = s.inBuf)
    (hroom : t.poutRoom = s.poutRoom) : DecInv t := by
  cases t
  cases hdec
  cases hin
  cases hroom
  exact ⟨h.mapped, h.fits, h.header, h.stream, h.marker, h.pixels, h.total, h.errPhase, h.errKind, h.errOffset, h.narrow⟩

/-- Of an engine that is not BUSY it says nothing of DEC_INLEN, of IN, nor of the room. -/
theorem DecInv.reconfigure {s t : State} (h : DecInv s) (hidle : decBusy s = false)
    (hdec : t.dec = { s.dec with inLen := t.dec.inLen }) : DecInv t := by
  have hphase : t.dec.phase = s.dec.phase := by rw [hdec]
  have hbusy : decBusy t = false := by
    unfold decBusy at hidle ⊢
    rw [hphase]
    exact hidle
  have hidlePhase : ∀ p, p = DecPhase.header ∨ p = .stream ∨ p = .marker → t.dec.phase ≠ p := fun p hp heq => by
    subst heq
    rw [decBusy_of_phase hp] at hbusy
    cases hbusy
  exact {
    mapped := by rw [hdec]; exact h.mapped
    fits := fun hb => by rw [hbusy] at hb; cases hb
    header := fun hp => absurd hp (hidlePhase _ (.inl rfl))
    stream := fun hp => absurd hp (hidlePhase _ (.inr (.inl rfl)))
    marker := fun hp => absurd hp (hidlePhase _ (.inr (.inr rfl)))
    pixels := by rw [hdec]; exact h.pixels
    total := fun hb => by rw [hbusy] at hb; cases hb
    errPhase := by rw [hdec]; exact h.errPhase
    errKind := by rw [hdec]; exact h.errKind
    errOffset := by rw [hdec]; exact h.errOffset
    narrow := by
      have hnarrow := h.narrow
      rw [pixelsToCome_of_not_busy hidle] at hnarrow
      rw [pixelsToCome_of_not_busy hbusy, hdec]
      exact hnarrow }

theorem decInv_of_reset {s : State} (h : s.dec = DecEngine.reset) : DecInv s := by
  have hidle : s.dec.phase = .idle := by rw [h]; rfl
  have hbusy : decBusy s = false := by simp [decBusy, hidle]
  exact {
    mapped := fun hp => absurd hidle hp
    fits := fun hb => by rw [hbusy] at hb; cases hb
    header := fun hp => by rw [hidle] at hp; cases hp
    stream := fun hp => by rw [hidle] at hp; cases hp
    marker := fun hp => by rw [hidle] at hp; cases hp
    pixels := by rw [h]; decide
    total := fun hb => by rw [hbusy] at hb; cases hb
    errPhase := by rw [h]; decide
    errKind := by rw [h]; decide
    errOffset := by rw [h]; decide
    narrow := by rw [pixelsToCome_of_not_busy hbusy, h]; decide }

theorem decInv_decStart {s : State} (hok : decPremises s = true) : DecInv (decStart s) := by
  obtain ⟨hfits, hproduced⟩ := (decPremises_iff s).mp hok
  exact {
    mapped := fun _ => directMapped_seedCache
    fits := fun _ => hfits
    header := fun _ => ⟨rfl, rfl, rfl⟩
    stream := nofun
    marker := nofun
    pixels := Nat.zero_le _
    total := fun _ => Nat.zero_le _
    errPhase := iff_of_false (fun h => h rfl) nofun
    errKind := ⟨nofun, nofun⟩
    errOffset := rfl
    narrow := by
      rw [pixelsToCome_of_header rfl]
      exact ⟨Nat.lt_of_le_of_lt (Nat.le_of_eq (Nat.zero_add _)) hproduced, Nat.two_pow_pos _⟩ }

/-- The error registers away from DONE_ERR (R33). -/
theorem DecInv.no_error {s : State} (h : DecInv s) (hp : s.dec.phase ≠ .doneErr) :
    s.dec.err = .none ∧ s.dec.errOff = 0 := by
  have herr := h.err_eq_none hp
  have hoff := h.errOffset
  rw [herr] at hoff
  exact ⟨herr, hoff⟩

/-- Error entry keeps the part, when the error is one that is reached, at its own offset (R230, R232, R238). -/
theorem DecInv.raise {s : State} (h : DecInv s) (hbusy : decBusy s = true) {e : DecErr} {off : Nat}
    (he : e = .headerTooShort ∨ e = .invalidMagic ∨ e = .paddingMismatch)
    (hoff : off = if e = .paddingMismatch then s.dec.offset else 0) : DecInv (raiseError e off s) where
  mapped _ := h.mapped fun hp => by simp [decBusy, hp] at hbusy
  fits := nofun
  header := nofun
  stream := nofun
  marker := nofun
  pixels := h.pixels
  total := nofun
  errPhase := iff_of_true (by obtain rfl | rfl | rfl := he <;> nofun) rfl
  errKind := by obtain rfl | rfl | rfl := he <;> exact ⟨nofun, nofun⟩
  errOffset := hoff
  narrow := ⟨Nat.lt_of_le_of_lt (Nat.le_add_right _ _) h.narrow.1, h.narrow.2⟩

/-- The header step into STREAM: the pixels to come are those of the whole stream (R190). -/
theorem DecInv.header_step {s : State} (hs : DecInv s) (hphase : s.dec.phase = .header) {f : HeaderFields}
    (hf : parseHeader (readIn s) (inputLength s) = .ok f) :
    DecInv { s with dec := { s.dec with
      width := f.width, height := f.height, channels := f.channels, colorspace := f.colorspace,
      offset := 14, phase := .stream } } := by
  have hbusy := decBusy_of_phase (.inl hphase)
  have hlen := parseHeader_ok_length hf
  obtain ⟨-, hcount, -⟩ := hs.header hphase
  obtain ⟨herr, hoff⟩ := hs.no_error (by rw [hphase]; nofun)
  have hnarrow := hs.narrow.1
  rw [pixelsToCome_of_header hphase, producedPixels_of_ok hf] at hnarrow
  exact {
    mapped := fun _ => hs.mapped (by rw [hphase]; nofun)
    fits := fun _ => hs.fits hbusy
    header := nofun
    stream := fun _ => ⟨Nat.le_refl _, hlen⟩
    marker := nofun
    pixels := Nat.le_trans (Nat.le_of_eq hcount) (Nat.zero_le _)
    total := fun _ => hs.total hbusy
    errPhase := iff_of_false (fun h => h herr) nofun
    errKind := hs.errKind
    errOffset := by dsimp only; rw [hoff, herr]; rfl
    narrow := ⟨hnarrow, by dsimp only; decide⟩ }

/-- An opcode step: it moves the opcode's pixels from those to come to those appended (R192, R195, R203). -/
theorem DecInv.opcode_step {s : State} (hs : DecInv s) (hphase : s.dec.phase = .stream)
    (hloop : s.dec.offset + 8 < inputLength s) {cur : Pixel} {c : Cache}
    (hc : c = s.dec.cache ∨ c = cacheStore s.dec.cache cur) : DecInv (afterOpcode s cur c) := by
  have hbusy := decBusy_of_phase (.inr (.inl hphase))
  have hmapped := hs.mapped (by rw [hphase]; nofun)
  obtain ⟨hmin, -⟩ := hs.stream hphase
  obtain ⟨herr, hoff⟩ := hs.no_error (by rw [hphase]; nofun)
  have hnarrow := hs.narrow.1
  rw [pixelsToCome_of_stream hphase, streamPixels_step _ hloop] at hnarrow
  have hlen : opLen (readIn s s.dec.offset) ≤ 5 := opLen_le_longest _
  have hpos := opLen_pos (readIn s s.dec.offset)
  have hcount := opPixels_le (readIn s s.dec.offset)
  have hpixels := hs.pixels
  have hwide := inputLength_lt s
  exact {
    mapped := fun _ => by
      obtain rfl | rfl := hc
      · exact hmapped
      · exact directMapped_cacheStore _ hmapped
    fits := fun _ => hs.fits hbusy
    header := fun hp => nomatch hphase.symm.trans hp
    stream := fun _ => ⟨show 14 ≤ s.dec.offset + _ by omega, show s.dec.offset + _ ≤ inputLength s by omega⟩
    marker := fun hp => nomatch hphase.symm.trans hp
    pixels := show s.dec.pixCount + _ ≤ 62 * (s.dec.offset + _ - 14) by omega
    total := fun _ => show s.dec.pixCount + _ ≤ 62 * (inputLength s - 22) by omega
    errPhase := hs.errPhase
    errKind := hs.errKind
    errOffset := by
      show s.dec.errOff = if s.dec.err = .paddingMismatch then _ else 0
      rw [hoff, herr]
      rfl
    narrow := by
      rw [pixelsToCome_of_stream (s := afterOpcode s cur c) hphase]
      exact ⟨Nat.lt_of_le_of_lt (Nat.le_of_eq (Nat.add_assoc ..)) hnarrow, show s.dec.offset + _ < _ by omega⟩ }

/-- The end of the loop: nothing is to come (R192). -/
theorem DecInv.loopEnd_step {s : State} (hs : DecInv s) (hphase : s.dec.phase = .stream)
    (hend : inputLength s ≤ s.dec.offset + 8) : DecInv { s with dec := { s.dec with phase := .marker } } := by
  have hbusy := decBusy_of_phase (.inr (.inl hphase))
  obtain ⟨hmin, hmax⟩ := hs.stream hphase
  obtain ⟨herr, hoff⟩ := hs.no_error (by rw [hphase]; nofun)
  exact {
    mapped := fun _ => hs.mapped (by rw [hphase]; nofun)
    fits := fun _ => hs.fits hbusy
    header := nofun
    stream := nofun
    marker := fun _ => ⟨hmin, hmax, hend⟩
    pixels := hs.pixels
    total := fun _ => hs.total hbusy
    errPhase := iff_of_false (fun h => h herr) nofun
    errKind := hs.errKind
    errOffset := hs.errOffset
    narrow := ⟨Nat.lt_of_le_of_lt (Nat.le_add_right _ _) hs.narrow.1, hs.narrow.2⟩ }

/-- The marker accepted: the decode has ended (R204). -/
theorem DecInv.marker_step {s : State} (hs : DecInv s) (hphase : s.dec.phase = .marker) :
    DecInv { s with dec := { s.dec with phase := .doneOk } } := by
  obtain ⟨herr, hoff⟩ := hs.no_error (by rw [hphase]; nofun)
  exact {
    mapped := fun _ => hs.mapped (by rw [hphase]; nofun)
    fits := nofun
    header := nofun
    stream := nofun
    marker := nofun
    pixels := hs.pixels
    total := nofun
    errPhase := iff_of_false (fun h => h herr) nofun
    errKind := hs.errKind
    errOffset := hs.errOffset
    narrow := ⟨Nat.lt_of_le_of_lt (Nat.le_add_right _ _) hs.narrow.1, hs.narrow.2⟩ }

/-- Every turn of the decode engine keeps its part. -/
theorem DecInv.turn {s t : State} (hs : DecInv s) (h : DecTurnTo s t) : DecInv t := by
  cases h with
  | rest => exact hs
  | headerError hphase e he =>
    obtain rfl | rfl := parseHeader_error he
    · exact hs.raise (decBusy_of_phase (.inl hphase)) (.inl rfl) rfl
    · exact hs.raise (decBusy_of_phase (.inl hphase)) (.inr (.inl rfl)) rfl
  | headerOk hphase f hf => exact hs.header_step hphase hf
  | opcode hphase hloop cur c hc => exact hs.opcode_step hphase hloop hc
  | loopEnd hphase hend => exact hs.loopEnd_step hphase hend
  | markerGood hphase => exact hs.marker_step hphase
  | markerBad hphase => exact hs.raise (decBusy_of_phase (.inr (.inr hphase))) (.inr (.inr rfl)) rfl

/-! The memories -/

/-- An emission keeps OUT canonical, and a turn of the encode engine writes no other memory. -/
theorem MemInv.encTurn {s t : State} (hs : MemInv s) (h : EncTurnTo s t) : MemInv t := by
  obtain ⟨hin, hout, hpin, hpout⟩ := hs
  cases h with
  | rest => exact ⟨hin, hout, hpin, hpout⟩
  | header | pixel | finish =>
    unfold MemInv
    rw [emit_outBuf]
    exact ⟨hin, Memory.writeAll_wf _ _ hout, hpin, hpout⟩

/-- A `Put` keeps POUT canonical, and a turn of the decode engine writes no other memory. -/
theorem MemInv.decTurn {s t : State} (hs : MemInv s) (h : DecTurnTo s t) : MemInv t := by
  obtain ⟨hin, hout, hpin, hpout⟩ := hs
  cases h with
  | opcode => exact ⟨hin, hout, hpin, Memory.writeAll_wf _ _ hpout⟩
  | rest | headerError | headerOk | loopEnd | markerGood | markerBad => exact ⟨hin, hout, hpin, hpout⟩

/-! The machine -/

theorem Inv.encTurn {s t : State} (hs : Inv s) (h : EncTurnTo s t) : Inv t where
  enc := hs.enc.turn h
  dec := hs.dec.congr (by rw [h.frame]) (by rw [h.frame]) (by rw [h.frame])
  mem := hs.mem.encTurn h

theorem Inv.decTurn {s t : State} (hs : Inv s) (h : DecTurnTo s t) : Inv t where
  enc := hs.enc.congr (by rw [h.frame]) (by rw [h.frame])
  dec := hs.dec.turn h
  mem := hs.mem.decTurn h

theorem Inv.hostAct {s t : State} {act : HostAction} (hs : Inv s) (h : HostActTo s act t) : Inv t := by
  obtain ⟨henc, hdec, hmem⟩ := hs
  have ⟨hin, hout, hpin, hpout⟩ := hmem
  cases h with
  | reply => exact ⟨henc.congr rfl rfl, hdec.congr rfl rfl rfl, hmem⟩
  | configureEnc _ hidle => exact ⟨henc.reconfigure hidle rfl, hdec.congr rfl rfl rfl, hmem⟩
  | configureDec _ hidle => exact ⟨henc.congr rfl rfl, hdec.reconfigure hidle rfl, hmem⟩
  | startEnc _ _ _ hok => exact ⟨encInv_encStart hok, hdec.congr rfl rfl rfl, hmem⟩
  | startDec _ _ _ hok => exact ⟨henc.congr rfl rfl, decInv_decStart hok, hmem⟩
  | encBuffers _ hidle pin out room hpin' hout' =>
    exact ⟨henc.reconfigure hidle rfl, hdec.congr rfl rfl rfl, hin, hout' hout, hpin' hpin, hpout⟩
  | decBuffers _ hidle inp pout room hin' hpout' =>
    exact ⟨henc.congr rfl rfl, hdec.reconfigure hidle rfl, hin' hin, hout, hpin, hpout' hpout⟩
  | powerOn => exact ⟨encInv_of_reset rfl, decInv_of_reset rfl, hmem⟩

/-- Whose turn it is and what the host has pending are nothing to the invariant. -/
theorem Inv.reschedule {s : State} (hs : Inv s) (pending : List HostAction) (sched : List Agent) :
    Inv { s with pending := pending, sched := sched } :=
  ⟨hs.enc.congr rfl rfl, hs.dec.congr rfl rfl rfl, hs.mem⟩

/-- Settles O49: a step is a turn of one engine, or an action of the host, at a state with another schedule and queue. -/
theorem everyStepKeepsTheInvariant : Obligations.EveryStepKeepsTheInvariant := by
  intro s t hs hstep
  cases stepTo_of_step hstep with
  | enc h => exact (hs.reschedule s.pending s.sched.tail).encTurn h
  | dec h => exact (hs.reschedule s.pending s.sched.tail).decTurn h
  | hostIdle => exact hs.reschedule s.pending s.sched.tail
  | host _ h => exact (hs.reschedule _ s.sched.tail).hostAct h

/-- Settles O50: both engines are at their reset states, and the memories are empty. -/
theorem resetMeetsTheInvariant : Obligations.ResetMeetsTheInvariant :=
  ⟨encInv_of_reset rfl, decInv_of_reset rfl, reset_memories_wf⟩

theorem DecInv.errOff_lt {s : State} (h : DecInv s) : s.dec.errOff < 2 ^ Config.countW := by
  rw [h.errOffset]
  split
  · exact h.narrow.2
  · decide

/-- Settles O51: the premises of START against the progress since, and each count by its bound. -/
theorem busyEnginesStayInsideTheirBuffers : Obligations.BusyEnginesStayInsideTheirBuffers := by
  intro s hs
  obtain ⟨houtLen, hpos⟩ := hs.enc.narrow
  obtain ⟨hcounts, hoffset⟩ := hs.dec.narrow
  have hpixCount : s.dec.pixCount < 2 ^ Config.countW := Nat.lt_of_le_of_lt (Nat.le_add_right _ _) hcounts
  have herrOff := hs.dec.errOff_lt
  refine ⟨fun hbusy => ?_, fun hbusy => Nat.le_trans (hs.dec.total hbusy) (hs.dec.fits hbusy),
    houtLen, hpos, hoffset, herrOff, hpixCount, fun r => ?_⟩
  · have hlen := hs.enc.progress.outLen_le fun hp => by simp [encBusy, hp] at hbusy
    have hmax := hs.enc.progress.pos_le hbusy
    have hfits := (hs.enc.fits hbusy).2
    omega
  · obtain ⟨houtLen', hpos', hpix', -, -, hoff'⟩ :=
      progressRegistersShowTheEngines s houtLen hpos hpixCount hoffset herrOff
    cases r with
    | encOutLen => exact ⟨_, houtLen'⟩
    | encPos => exact ⟨_, hpos'⟩
    | decPixCount => exact ⟨_, hpix'⟩
    | decOffset => exact ⟨_, hoff'⟩
    | encCtrl | encStatus | encWidth | encHeight | encFormat | encCount | decCtrl | decStatus | decInLen | decWidth
    | decHeight | decFormat => exact ⟨_, rfl⟩

end Sys2Proof.Machine
end

section
/-! SUPPORT. What power-on leaves unspecified (R48): two machines that are alike stay alike under whatever reads none of it,
and so under every turn and every action of the host; and the statement settled from this. -/
namespace Sys2Proof.Machine

/-! What alike machines share -/

theorem encAlike.phase_eq {e f : EncEngine} (h : encAlike e f) : e.phase = f.phase := by rw [h.1]

theorem decAlike.phase_eq {d f : DecEngine} (h : decAlike d f) : d.phase = f.phase := by rw [h.1]

theorem alike.encBusy_eq {s t : State} (h : alike s t) : encBusy s = encBusy t := by
  unfold encBusy
  rw [h.1.phase_eq]

theorem alike.decBusy_eq {s t : State} (h : alike s t) : decBusy s = decBusy t := by
  unfold decBusy
  rw [h.2.1.phase_eq]

theorem alike.inBuf_eq {s t : State} (h : alike s t) : s.inBuf = t.inBuf := by rw [h.2.2]

theorem alike.pin_eq {s t : State} (h : alike s t) : s.pin = t.pin := by rw [h.2.2]

theorem alike.outRoom_eq {s t : State} (h : alike s t) : s.outRoom = t.outRoom := by rw [h.2.2]

theorem alike.poutRoom_eq {s t : State} (h : alike s t) : s.poutRoom = t.poutRoom := by rw [h.2.2]

theorem alike.draws_eq {s t : State} (h : alike s t) : s.draws = t.draws := by rw [h.2.2]

theorem alike.sched_eq {s t : State} (h : alike s t) : s.sched = t.sched := by rw [h.2.2]

theorem alike.pending_eq {s t : State} (h : alike s t) : s.pending = t.pending := by rw [h.2.2]

/-- Every register shows the same (R36 to R44). -/
theorem alike.regView_eq {s t : State} (h : alike s t) (r : HostReg) : regView r s = regView r t := by
  obtain ⟨⟨henc, -⟩, ⟨hdec, -⟩, -⟩ := h
  have hshown : offsetShown s = offsetShown t := by unfold offsetShown; rw [hdec]
  cases r with
  | decOffset => exact congrArg countWord hshown
  | encCtrl | decCtrl => rfl
  | encStatus | encWidth | encHeight | encFormat | encCount | encOutLen | encPos =>
    unfold regView
    rw [henc]
  | decStatus | decInLen | decWidth | decHeight | decFormat | decPixCount =>
    unfold regView
    rw [hdec]

/-- An update that neither reads nor writes an engine keeps machines alike. -/
theorem alike.map {s t : State} (h : alike s t) (g : State → State)
    (hframe : ∀ (u : State) (e : EncEngine) (d : DecEngine),
      g { u with enc := e, dec := d } = { g u with enc := e, dec := d }) : alike (g s) (g t) := by
  have henc : ∀ u : State, (g u).enc = u.enc := fun u => (congrArg State.enc (hframe u u.enc u.dec)).trans rfl
  have hdec : ∀ u : State, (g u).dec = u.dec := fun u => (congrArg State.dec (hframe u u.enc u.dec)).trans rfl
  refine ⟨?_, ?_, ?_⟩
  · rw [henc, henc]
    exact h.1
  · rw [hdec, hdec]
    exact h.2.1
  · rw [henc, hdec, ← hframe]
    exact congrArg g h.2.2

/-- Machines alike stay so when each is given an encode engine, and the two engines are alike. -/
theorem alike.withEnc {s t : State} (h : alike s t) {e f : EncEngine} (hef : encAlike e f) :
    alike { s with enc := e } { t with enc := f } :=
  ⟨hef, h.2.1, congrArg (fun u : State => { u with enc := e }) h.2.2⟩

theorem alike.withDec {s t : State} (h : alike s t) {d f : DecEngine} (hdf : decAlike d f) :
    alike { s with dec := d } { t with dec := f } :=
  ⟨h.1, hdf, congrArg (fun u : State => { u with dec := d }) h.2.2⟩

theorem encAlike.refl (e : EncEngine) : encAlike e e := ⟨rfl, fun _ => rfl⟩

theorem decAlike.refl (d : DecEngine) : decAlike d d := ⟨rfl, fun _ => rfl⟩

/-! Turns of the engines -/

/-- A started engine is the same in both, and its turn is one emission; an engine at IDLE takes no step. -/
theorem alike.after_encTurn {s t : State} (h : alike s t) : alike (encTurn s) (encTurn t) := by
  by_cases hidle : s.enc.phase = .idle
  · rw [encTurn_of_idle hidle, encTurn_of_idle (h.1.phase_eq.symm.trans hidle)]
    exact h
  · obtain ⟨v, e, -, hemit⟩ := encTurn_eq_emit s
    have hsame := h.withEnc (encAlike.refl e)
    rw [hemit s rfl rfl, hemit t (h.1.2 hidle).symm h.pin_eq.symm]
    refine ⟨encAlike.refl _, hsame.2.1, congrArg (emit v) hsame.2.2⟩

/-- As for the encode engine, with one `Put` for the emission. -/
theorem alike.after_decTurn {s t : State} (h : alike s t) : outcomeAlike (decTurn s) (decTurn t) := by
  by_cases hidle : s.dec.phase = .idle
  · have hbusy : decBusy s = false := by simp [decBusy, hidle]
    rw [decTurn_of_not_busy hbusy, decTurn_of_not_busy (h.decBusy_eq.symm.trans hbusy)]
    exact h
  · obtain ⟨d, p, n, -, hput⟩ := decTurn_eq_put s
    have hsame := h.withDec (decAlike.refl d)
    rw [hput s rfl rfl, hput t (h.2.1.2 hidle).symm h.inBuf_eq.symm]
    exact ⟨hsame.1, decAlike.refl _, congrArg (put p n) hsame.2.2⟩

/-! The host's actions -/

/-- START seeds whatever power-on left unspecified (R161). -/
theorem alike.after_encStart {s t : State} (h : alike s t) : alike (encStart s) (encStart t) := by
  have henc : (encStart s).enc = (encStart t).enc := by
    rw [encStart_enc, h.1.1]
    rfl
  show alike { s with enc := (encStart s).enc } (encStart t)
  rw [henc]
  exact h.withEnc (encAlike.refl _)

theorem alike.after_decStart {s t : State} (h : alike s t) : alike (decStart s) (decStart t) := by
  have hdec : (decStart s).dec = (decStart t).dec := by
    rw [decStart_dec, h.2.1.1]
    rfl
  show alike { s with dec := (decStart s).dec } (decStart t)
  rw [hdec]
  exact h.withDec (decAlike.refl _)

theorem alike.pixelCount_eq {s t : State} (h : alike s t) : pixelCount s = pixelCount t := by
  unfold pixelCount
  rw [h.1.1]

theorem alike.inputLength_eq {s t : State} (h : alike s t) : inputLength s = inputLength t := by
  unfold inputLength
  rw [h.2.1.1]

theorem alike.readIn_eq {s t : State} (h : alike s t) : readIn s = readIn t := by
  unfold readIn
  rw [h.inBuf_eq]

theorem alike.producedPixels_eq {s t : State} (h : alike s t) : producedPixels s = producedPixels t := by
  have hparse : parseHeader (readIn s) (inputLength s) =
      parseHeader (readIn t) (inputLength t) := by rw [h.readIn_eq, h.inputLength_eq]
  cases ht : parseHeader (readIn t) (inputLength t) with
  | error e => rw [producedPixels_of_error ht, producedPixels_of_error (hparse.trans ht)]
  | ok f => rw [producedPixels_of_ok ht, producedPixels_of_ok (hparse.trans ht), h.readIn_eq, h.inputLength_eq]

theorem alike.encPremises_eq {s t : State} (h : alike s t) : encPremises s = encPremises t := by
  rw [Bool.eq_iff_iff, encPremises_iff, encPremises_iff, h.pixelCount_eq, h.outRoom_eq]

theorem alike.decPremises_eq {s t : State} (h : alike s t) : decPremises s = decPremises t := by
  rw [Bool.eq_iff_iff, decPremises_iff, decPremises_iff, h.inputLength_eq, h.producedPixels_eq, h.poutRoom_eq]

theorem outcomeAlike_unlessBusy {s t : State} {b c : Bool} (hbusy : b = c) (h : alike s t) :
    outcomeAlike (unlessBusy b s) (unlessBusy c t) := by
  subst hbusy
  cases b with
  | true => exact rfl
  | false => exact h

/-- A configuration write gives both engines the same registers, and both are BUSY or neither. -/
theorem alike.after_configureEnc {s t : State} (h : alike s t) {e f : EncEngine} (hef : encAlike e f) :
    outcomeAlike (configureEnc e s) (configureEnc f t) := by
  unfold configureEnc
  rw [h.encBusy_eq]
  cases encBusy t with
  | true => exact h
  | false => exact h.withEnc hef

theorem alike.after_configureDec {s t : State} (h : alike s t) {d f : DecEngine} (hdf : decAlike d f) :
    outcomeAlike (configureDec d s) (configureDec f t) := by
  unfold configureDec
  rw [h.decBusy_eq]
  cases decBusy t with
  | true => exact h
  | false => exact h.withDec hdf

theorem alike.after_hostStartEnc {s t : State} (h : alike s t) : outcomeAlike (hostStartEnc s) (hostStartEnc t) := by
  unfold hostStartEnc
  rw [h.encBusy_eq, h.encPremises_eq]
  cases encBusy t with
  | true => exact h
  | false =>
    cases encPremises t with
    | true => exact h.after_encStart
    | false => exact rfl

theorem alike.after_hostStartDec {s t : State} (h : alike s t) : outcomeAlike (hostStartDec s) (hostStartDec t) := by
  unfold hostStartDec
  rw [h.decBusy_eq, h.decPremises_eq]
  cases decBusy t with
  | true => exact h
  | false =>
    cases decPremises t with
    | true => exact h.after_decStart
    | false => exact rfl

/-- A change of the configuration alone, made to alike engines, leaves them alike. -/
theorem encAlike.map {e f : EncEngine} (h : encAlike e f) (g : EncEngine → EncEngine)
    (hg : ∀ (x : EncEngine) (c : Cache) (p : Pixel) (r : Nat),
      g { x with cache := c, prev := p, run := r } = { g x with cache := c, prev := p, run := r })
    (hphase : ∀ x, (g x).phase = x.phase) : encAlike (g e) (g f) := by
  have hrest : ∀ x : EncEngine, (g x).cache = x.cache ∧ (g x).prev = x.prev ∧ (g x).run = x.run := fun x => by
    have hx := hg x x.cache x.prev x.run
    exact ⟨(congrArg EncEngine.cache hx).trans rfl, (congrArg EncEngine.prev hx).trans rfl,
      (congrArg EncEngine.run hx).trans rfl⟩
  obtain ⟨hcache, hprev, hrun⟩ := hrest e
  refine ⟨?_, fun hp => congrArg g (h.2 (by rwa [hphase] at hp))⟩
  rw [hcache, hprev, hrun, ← hg]
  exact congrArg g h.1

theorem alike.after_hostWriteReg {s t : State} (h : alike s t) (r : HostReg) (v : Word) :
    outcomeAlike (hostWriteReg r v s) (hostWriteReg r v t) := by
  cases r with
  | encCtrl =>
    unfold hostWriteReg
    cases v.getLsbD 0 with
    | true => exact h.after_hostStartEnc
    | false => exact h
  | decCtrl =>
    unfold hostWriteReg
    cases v.getLsbD 0 with
    | true => exact h.after_hostStartDec
    | false => exact h
  | encWidth => exact h.after_configureEnc (h.1.map (fun x => { x with width := v }) (fun _ _ _ _ => rfl) fun _ => rfl)
  | encHeight => exact h.after_configureEnc (h.1.map (fun x => { x with height := v }) (fun _ _ _ _ => rfl) fun _ => rfl)
  | encFormat =>
    exact h.after_configureEnc (h.1.map (fun x => { x with
      channels := channelOfCode (v.extractLsb' 0 2), colorspace := colorOfCode (v.extractLsb' 2 2) })
      (fun _ _ _ _ => rfl) fun _ => rfl)
  | encCount => exact h.after_configureEnc (h.1.map (fun x => { x with count := v }) (fun _ _ _ _ => rfl) fun _ => rfl)
  | decInLen =>
    exact h.after_configureDec ⟨congrArg (fun d : DecEngine => { d with inLen := v }) h.2.1.1,
      fun hp => congrArg (fun d : DecEngine => { d with inLen := v }) (h.2.1.2 hp)⟩
  | encStatus | encOutLen | encPos | decStatus | decWidth | decHeight | decFormat | decPixCount | decOffset => exact h

/-- A reply is nothing to the engines. -/
theorem alike.after_replyWith {s t : State} (h : alike s t) (r : Reply) : alike (replyWith r s) (replyWith r t) :=
  h.map (replyWith r) fun _ _ _ => rfl

theorem alike.after_drawn {s t : State} (h : alike s t) : alike (drawn s) (drawn t) :=
  h.map drawn fun _ _ _ => rfl

theorem alike.after_hostReadReg {s t : State} (h : alike s t) (r : HostReg) :
    outcomeAlike (hostReadReg r s) (hostReadReg r t) := by
  unfold hostReadReg
  rw [h.2.1.phase_eq, h.regView_eq, h.draws_eq]
  split
  · exact h.after_drawn.after_replyWith _
  · split
    · exact h.after_replyWith _
    · exact rfl

theorem alike.poutNoResult_eq {s t : State} (h : alike s t) : poutNoResult s = poutNoResult t := by
  rw [poutNoResult, poutNoResult, h.decBusy_eq, h.2.1.phase_eq]

/-- Every action of the host takes alike machines to the same stop or to alike machines. -/
theorem alike.after_hostAct {s t : State} (h : alike s t) (act : HostAction) :
    outcomeAlike (hostAct act s) (hostAct act t) := by
  cases act with
  | readReg offset size =>
    cases hreg : accessedReg offset size with
    | none => simp only [hostAct, hreg]; exact rfl
    | some r => rw [hostAct_readReg hreg, hostAct_readReg hreg]; exact h.after_hostReadReg r
  | writeReg offset size v =>
    cases hreg : accessedReg offset size with
    | none => simp only [hostAct, hreg]; exact rfl
    | some r => rw [hostAct_writeReg hreg, hostAct_writeReg hreg]; exact h.after_hostWriteReg r v
  | writeIn a v =>
    exact outcomeAlike_unlessBusy h.decBusy_eq
      (h.map (fun u => { u with inBuf := Memory.write u.inBuf a v }) fun _ _ _ => rfl)
  | writePout i p =>
    exact outcomeAlike_unlessBusy h.decBusy_eq
      (h.map (fun u => { u with pout := Memory.write u.pout i p }) fun _ _ _ => rfl)
  | providePout room =>
    exact outcomeAlike_unlessBusy h.decBusy_eq (h.map (fun u => { u with poutRoom := room }) fun _ _ _ => rfl)
  | writeOut a v =>
    exact outcomeAlike_unlessBusy h.encBusy_eq
      (h.map (fun u => { u with outBuf := Memory.write u.outBuf a v }) fun _ _ _ => rfl)
  | writePin i p =>
    exact outcomeAlike_unlessBusy h.encBusy_eq
      (h.map (fun u => { u with pin := Memory.write u.pin i p }) fun _ _ _ => rfl)
  | writePinByte a v =>
    exact outcomeAlike_unlessBusy h.encBusy_eq (h.map (fun u =>
      { u with pin := Memory.write u.pin (a / 4) (setPixelByte (readPin u (a / 4)) (a % 4) v) }) fun _ _ _ => rfl)
  | provideOut room =>
    exact outcomeAlike_unlessBusy h.encBusy_eq (h.map (fun u => { u with outRoom := room }) fun _ _ _ => rfl)
  | readIn a => exact h.map (fun u => replyWith (.byte (readIn u a)) u) fun _ _ _ => rfl
  | readPin i => exact h.map (fun u => replyWith (.pixel (readPin u i)) u) fun _ _ _ => rfl
  | readOut a =>
    show alike (hostReadOut a s) (hostReadOut a t)
    unfold hostReadOut
    rw [h.encBusy_eq]
    split
    · exact h.map (fun u => replyWith (.byte (Config.freeByte u.draws)) (drawn u)) fun _ _ _ => rfl
    · exact h.map (fun u => replyWith (.byte (readOut u a)) u) fun _ _ _ => rfl
  | readPout i =>
    show alike (hostReadPout i s) (hostReadPout i t)
    unfold hostReadPout
    rw [h.poutNoResult_eq]
    split
    · exact h.map (fun u => replyWith (.pixel (Config.freePixel u.draws)) (drawn u)) fun _ _ _ => rfl
    · exact h.map (fun u => replyWith (.pixel (readPout u i)) u) fun _ _ _ => rfl
  | readPoutByte a =>
    show alike (hostReadPoutByte a s) (hostReadPoutByte a t)
    unfold hostReadPoutByte
    rw [h.poutNoResult_eq]
    split
    · exact h.map (fun u => replyWith (.byte (Config.freeByte u.draws)) (drawn u)) fun _ _ _ => rfl
    · exact h.map (fun u => replyWith (.byte (pixelByte (readPout u (a / 4)) (a % 4))) u)
        fun _ _ _ => rfl
  | powerOn =>
    exact (h.withEnc (encAlike.refl EncEngine.reset)).withDec (decAlike.refl DecEngine.reset)

theorem alike.nextAgent_eq {s t : State} (h : alike s t) : nextAgent s = nextAgent t := by
  rw [nextAgent, nextAgent, h.sched_eq, h.decBusy_eq, h.encBusy_eq]

theorem alike.after_hostTurn {s t : State} (h : alike s t) : outcomeAlike (hostTurn s) (hostTurn t) := by
  have hpending := h.pending_eq
  cases ht : t.pending with
  | nil =>
    rw [hostTurn_of_nil (hpending.trans ht), hostTurn_of_nil ht]
    exact h
  | cons act rest =>
    rw [hostTurn_of_cons (hpending.trans ht), hostTurn_of_cons ht]
    exact (h.map (fun u => { u with pending := rest }) fun _ _ _ => rfl).after_hostAct act

/-- Settles O54: the same agent moves in both, and each agent's turn keeps them alike. -/
theorem unspecifiedPowerOnStateIsNeverObserved : Obligations.UnspecifiedPowerOnStateIsNeverObserved := by
  intro s t h
  have hturn : alike (takeTurn s) (takeTurn t) := h.map takeTurn fun _ _ _ => rfl
  have hagent := h.nextAgent_eq
  cases ht : nextAgent t with
  | enc => rw [step_of_enc (hagent.trans ht), step_of_enc ht]; exact hturn.after_encTurn
  | dec => rw [step_of_dec (hagent.trans ht), step_of_dec ht]; exact hturn.after_decTurn
  | host => rw [step_of_host (hagent.trans ht), step_of_host ht]; exact hturn.after_hostTurn

end Sys2Proof.Machine
end

section
/-! SUPPORT. Every decode ends (R192, R203): the opcode loop by the bytes left before the marker, then the marker; and the
statement settled from this. -/
namespace Sys2Proof.Machine

/-- `u` is at the end of a decode that appended `n` pixels more than it held. -/
def endsWith (n : Nat) (u t : State) : Prop :=
  (t.dec.phase = .doneOk ∨ t.dec.phase = .doneErr) ∧ t.dec.pixCount = u.dec.pixCount + n

/-- The marker step ends the decode, well or not, and appends nothing (R204). -/
theorem decRun_marker {u : State} (hphase : u.dec.phase = .marker) : ∃ t, decRun 1 u = .next t ∧ endsWith 0 u t := by
  cases hok : markerOk (readIn u) u.dec.offset (inputLength u) with
  | true =>
    exact ⟨_, decRun_succ 0 ((decTurn_of_marker hphase).trans (congrArg _ (decMarkerStep_of_ok hok))), .inl rfl, rfl⟩
  | false =>
    exact ⟨_, decRun_succ 0 ((decTurn_of_marker hphase).trans (congrArg _ (decMarkerStep_of_bad hok))), .inr rfl, rfl⟩

/-- From STREAM a decode ends within one turn for each byte left before the marker, and two more, having appended the
pixels that `streamPixels` counts (R203). -/
theorem decRun_stream (n : Nat) {u : State} (hphase : u.dec.phase = .stream)
    (hleft : inputLength u ≤ u.dec.offset + 8 + n) :
    ∃ k t, k ≤ n + 2 ∧ decRun k u = .next t ∧
      endsWith (streamPixels (readIn u) (inputLength u) (inputLength u) u.dec.offset) u t := by
  induction n generalizing u with
  | zero =>
    obtain ⟨t, hrun, hends⟩ := decRun_marker (u := { u with dec := { u.dec with phase := .marker } }) rfl
    rw [streamPixels_stop _ hleft]
    exact ⟨2, t, Nat.le_refl _, (decRun_succ 1 (decTurn_of_loopEnd hphase hleft)).trans hrun, hends⟩
  | succ n ih =>
    by_cases hloop : u.dec.offset + 8 < inputLength u
    · obtain ⟨cur, c, -, hstep⟩ := decOpcodeStep_effect hloop
      have hpos := opLen_pos (readIn u u.dec.offset)
      obtain ⟨k, t, hk, hrun, hend, hcount⟩ := ih (u := afterOpcode u cur c) hphase
        (show inputLength u ≤ u.dec.offset + opLen _ + 8 + n by omega)
      refine ⟨k + 1, t, by omega, (decRun_succ k ((decTurn_of_opcode hphase hloop).trans hstep)).trans hrun, hend, ?_⟩
      rw [hcount, streamPixels_step _ hloop]
      exact Nat.add_assoc ..
    · obtain ⟨k, t, hk, hrun, hends⟩ := ih hphase (by omega)
      exact ⟨k, t, by omega, hrun, hends⟩

/-- Settles O58: the header step ends the decode at once, or enters STREAM at offset 14 with nothing appended. -/
theorem everyDecodeEnds : Obligations.EveryDecodeEnds := by
  intro s
  have hbound := producedPixels_le s
  have hheader : decTurn (decStart s) = .next (decHeaderStep (decStart s)) := decTurn_of_header rfl
  cases hparse : parseHeader (readIn (decStart s)) (inputLength (decStart s)) with
  | error e =>
    rw [decHeaderStep_of_error hparse] at hheader
    have hnone : producedPixels s = 0 := producedPixels_of_error (s := decStart s) hparse
    rw [hnone]
    exact ⟨1, _, by omega, decRun_succ 0 hheader, .inr rfl, rfl, Nat.zero_le _⟩
  | ok f =>
    rw [decHeaderStep_of_ok hparse] at hheader
    have hall : producedPixels s = _ := producedPixels_of_ok (s := decStart s) hparse
    have hlen : 14 ≤ inputLength s := parseHeader_ok_length hparse
    obtain ⟨k, t, hk, hrun, hend, hcount⟩ := decRun_stream (inputLength s - 22) (u := { decStart s with
      dec := { (decStart s).dec with
        width := f.width, height := f.height, channels := f.channels, colorspace := f.colorspace,
        offset := 14, phase := .stream } }) rfl (show inputLength s ≤ 14 + 8 + (inputLength s - 22) by omega)
    have hproduced : t.dec.pixCount = producedPixels s := hcount.trans ((Nat.zero_add _).trans hall.symm)
    exact ⟨k + 1, t, by omega, (decRun_succ k hheader).trans hrun, hend, hproduced, hproduced ▸ hbound⟩

end Sys2Proof.Machine
end

section
/-! SUPPORT. The round trip (R207, R208): where the opcodes of a frame begin, what each of them is to a decode that is in
lockstep with the encode, the relation between the two that every turn of the decode keeps, and the two statements. -/
namespace Sys2Proof.Machine

/-! The frame -/

/-- Byte `a` of the frame that the encode of `s` writes. -/
def frameByte (s : State) (a : Nat) : Byte := readOut (encRun (pixelCount s + 2) (encStart s)) a

/-- The length of that frame. -/
def frameLength (s : State) : Nat := (encRun (pixelCount s + 2) (encStart s)).enc.outLen

/-- What an encode has written it does not write again (R52). -/
theorem readOut_encRun_add (s : State) (k j : Nat) {a : Nat} (ha : a < (encRun k s).enc.outLen) :
    a < (encRun (k + j) s).enc.outLen ∧ readOut (encRun (k + j) s) a = readOut (encRun k s) a := by
  induction j with
  | zero => exact ⟨ha, rfl⟩
  | succ j ih =>
    obtain ⟨hlt, hread⟩ := ih
    obtain ⟨hmono, hkeep⟩ := encTurn_appends (encRun (k + j) s)
    rw [← Nat.add_assoc, encRun_succ]
    exact ⟨Nat.lt_of_lt_of_le hlt hmono, (hkeep a (.inl hlt)).trans hread⟩

theorem frameByte_of_afterPixels (s : State) {k a : Nat} (hk : k ≤ pixelCount s)
    (ha : a < (afterPixels s k).enc.outLen) : frameByte s a = readOut (afterPixels s k) a := by
  have hadd := (readOut_encRun_add (encStart s) (k + 1) (pixelCount s + 1 - k) ha).2
  rwa [show k + 1 + (pixelCount s + 1 - k) = pixelCount s + 2 by omega] at hadd

/-- The frame holds the header at 0. -/
theorem frame_header (s : State) :
    holdsAt (frameByte s) 0 (headerBytes s.enc.width s.enc.height s.enc.channels s.enc.colorspace) := by
  intro k hk
  have hwritten : 0 + k < (afterPixels s 0).enc.outLen := by
    rw [afterPixels_zero, emit_enc]
    exact Nat.add_lt_add_left hk 0
  rw [frameByte_of_afterPixels s (Nat.zero_le _) hwritten, afterPixels_zero]
  exact (bytesAppended_emit _ (encStart s) (e := { (encStart s).enc with phase := afterHeader (pixelCount s) }) rfl).1 k hk

/-- The frame holds what a pixel step emits, where OUTLEN stood before it. -/
theorem frame_of_step {s : State} {k : Nat} (hk : k < pixelCount s) {v : List Byte} {r : Nat} {c : Cache}
    (hstep : afterPixels s (k + 1) = emit v (afterPixel (afterPixels s k) r c)) :
    holdsAt (frameByte s) (afterPixels s k).enc.outLen v := by
  intro j hj
  have hwritten : (afterPixels s k).enc.outLen + j < (afterPixels s (k + 1)).enc.outLen := by
    rw [hstep, emit_enc]
    exact Nat.add_lt_add_left hj _
  rw [frameByte_of_afterPixels s hk hwritten, hstep]
  exact (bytesAppended_emit v (afterPixels s k) (e := (afterPixel (afterPixels s k) r c).enc) rfl).1 j hj

/-- The frame holds the last flush and the marker, where OUTLEN stood after the last pixel step. -/
theorem frame_end (s : State) :
    holdsAt (frameByte s) (afterPixels s (pixelCount s)).enc.outLen
      (runBytes (afterPixels s (pixelCount s)).enc.run ++ marker) := by
  intro j hj
  rw [frameByte, encRun_end]
  exact (bytesAppended_emit _ (afterPixels s (pixelCount s))
    (e := { (afterPixels s (pixelCount s)).enc with run := 0, phase := .done }) rfl).1 j hj

theorem holdsAt_append {rd : Nat → Byte} {a : Nat} {u v : List Byte} (h : holdsAt rd a (u ++ v)) :
    holdsAt rd a u ∧ holdsAt rd (a + u.length) v := by
  refine ⟨fun k hk => ?_, fun k hk => ?_⟩
  · rw [h k (by rw [List.length_append]; omega), List.getElem_append_left hk]
  · rw [Nat.add_assoc, h (u.length + k) (by rw [List.length_append]; omega),
      List.getElem_append_right (Nat.le_add_right _ _)]
    simp only [Nat.add_sub_cancel_left]

/-! Where opcodes begin -/

/-- Where the opcodes of the first `k` pixels end in the frame, once a pending run is flushed. -/
def flushOffset (s : State) (k : Nat) : Nat :=
  (afterPixels s k).enc.outLen + (runBytes (afterPixels s k).enc.run).length

/-- An opcode of the frame ends with the `k`-th pixel: no run is pending after it, or one that is flushed next. -/
def opcodeBoundary (s : State) (k : Nat) : Prop :=
  k ≤ pixelCount s ∧
    ((afterPixels s k).enc.run = 0 ∨ k = pixelCount s ∨ readPin s k ≠ (afterPixels s k).enc.prev)

theorem flushOffset_of_run_zero {s : State} {k : Nat} (h : (afterPixels s k).enc.run = 0) :
    flushOffset s k = (afterPixels s k).enc.outLen := by
  rw [flushOffset, h]
  rfl

/-- A pixel step never moves the end of the opcodes back. -/
theorem flushOffset_le_succ {s : State} {k : Nat} (hk : k < pixelCount s) : flushOffset s k ≤ flushOffset s (k + 1) := by
  obtain ⟨v, r, c, hv, hstep⟩ := afterPixels_step s hk
  have hlen := hv.length
  unfold flushOffset
  rw [hstep, emit_enc, runBytes_length, runBytes_length]
  show _ ≤ (afterPixels s k).enc.outLen + v.length + if r = 0 then 0 else 1
  by_cases hflush : (afterPixels s k).enc.run = 0 <;> simp only [hflush, if_true, if_false] at hlen ⊢ <;> split <;> omega

theorem flushOffset_mono {s : State} {k m : Nat} (hkm : k ≤ m) (hm : m ≤ pixelCount s) :
    flushOffset s k ≤ flushOffset s m := by
  induction hkm with
  | refl => exact Nat.le_refl _
  | step _ ih => exact Nat.le_trans (ih (by omega)) (flushOffset_le_succ (by omega))

/-- The marker follows the last opcode, and nothing follows it. -/
theorem frameLength_eq (s : State) : frameLength s = flushOffset s (pixelCount s) + 8 := by
  rw [frameLength, encRun_end, emit_enc, List.length_append, flushOffset, Nat.add_assoc]
  rfl

theorem frame_marker (s : State) : holdsAt (frameByte s) (flushOffset s (pixelCount s)) marker :=
  (holdsAt_append (frame_end s)).2

/-! The next opcode -/

/-- The pixel step at a pixel that differs from the previous one: the flush, then an opcode that reads back as it. -/
theorem step_of_different_pixel {s : State} {k : Nat} (hk : k < pixelCount s)
    (hne : readPin s k ≠ (afterPixels s k).enc.prev) :
    ∃ (i : Instr) (c : Cache), i.wellFormed = true ∧
      opcodeGives i (afterPixels s k).enc.cache (afterPixels s k).enc.prev (readPin s k) c ∧
      afterPixels s (k + 1) =
        emit (runBytes (afterPixels s k).enc.run ++ encode i) (afterPixel (afterPixels s k) 0 c) := by
  obtain ⟨v, r, c, hv, hstep⟩ := afterPixels_step s hk
  cases hv with
  | grow heq => exact absurd heq hne
  | cap heq => exact absurd heq hne
  | opcode _ i hwf _ _ hgives => exact ⟨i, c, hwf, hgives, hstep⟩

/-- The pixel step at a pixel that equals the previous one leaves the cache and the previous pixel: it lengthens the run,
or writes it at its cap. -/
theorem step_of_equal_pixel {s : State} {k : Nat} (hk : k < pixelCount s)
    (heq : readPin s k = (afterPixels s k).enc.prev) :
    afterPixels s (k + 1) =
      if (afterPixels s k).enc.run = 61 then
        emit [0xFD#8] (afterPixel (afterPixels s k) 0 (afterPixels s k).enc.cache)
      else emit [] (afterPixel (afterPixels s k) ((afterPixels s k).enc.run + 1) (afterPixels s k).enc.cache) := by
  obtain ⟨v, r, c, hv, hstep⟩ := afterPixels_step s hk
  cases hv with
  | grow _ hrun => rw [if_neg hrun]; exact hstep
  | cap _ hrun => rw [if_pos hrun]; exact hstep
  | opcode hne => exact absurd heq hne

/-- Every pixel step leaves the pixel as the previous one (R171). -/
theorem prev_afterPixels_succ {s : State} {k : Nat} (hk : k < pixelCount s) :
    (afterPixels s (k + 1)).enc.prev = readPin s k := by
  obtain ⟨v, r, c, -, hstep⟩ := afterPixels_step s hk
  rw [hstep, emit_enc]
  show readPin (afterPixels s k) (afterPixels s k).enc.pos = _
  rw [readPin_afterPixels, (afterPixels_position s (Nat.le_of_lt hk)).1]

/-- At an opcode's end the frame holds the pending run, if any, from OUTLEN on. -/
theorem frame_flush {s : State} {k : Nat} (h : opcodeBoundary s k) :
    holdsAt (frameByte s) (afterPixels s k).enc.outLen (runBytes (afterPixels s k).enc.run) := by
  obtain ⟨hk, hrun | rfl | hne⟩ := h
  · rw [hrun]
    exact nofun
  · exact (holdsAt_append (frame_end s)).1
  · by_cases hlast : k = pixelCount s
    · subst hlast
      exact (holdsAt_append (frame_end s)).1
    · obtain ⟨i, c, -, -, hstep⟩ := step_of_different_pixel (by omega) hne
      exact (holdsAt_append (frame_of_step (by omega) hstep)).1

/-- `n` pixels from the `k`-th on equal the previous one, and the frame holds them as the end of one RUN, of `r` pixels
more, which begins at OUTLEN; the cache and the previous pixel stay. -/
structure RunOf (s : State) (k r n : Nat) : Prop where
  pos : 1 ≤ n
  le_cap : r + n ≤ 62
  boundary : opcodeBoundary s (k + n)
  cache : (afterPixels s (k + n)).enc.cache = (afterPixels s k).enc.cache
  prev : (afterPixels s (k + n)).enc.prev = (afterPixels s k).enc.prev
  pixels : ∀ j, k ≤ j → j < k + n → readPin s j = (afterPixels s k).enc.prev
  bytes : holdsAt (frameByte s) (afterPixels s k).enc.outLen (encode (.run (r + n)))
  offset : flushOffset s (k + n) = (afterPixels s k).enc.outLen + 1

/-- The run that ends with this pixel: at the cap of 62, at the last pixel, or before a different one. -/
theorem runOf_last {s : State} {k r : Nat} (hk : k < pixelCount s) (heq : readPin s k = (afterPixels s k).enc.prev)
    (hrun : (afterPixels s k).enc.run = r) (hr : r ≤ 61)
    (hend : r = 61 ∨ k + 1 = pixelCount s ∨ readPin s (k + 1) ≠ (afterPixels s k).enc.prev) : RunOf s k r 1 := by
  have hprev : (afterPixels s (k + 1)).enc.prev = (afterPixels s k).enc.prev := (prev_afterPixels_succ hk).trans heq
  have hpixels : ∀ j, k ≤ j → j < k + 1 → readPin s j = (afterPixels s k).enc.prev := fun j hlo hhi => by
    obtain rfl : j = k := by omega
    exact heq
  have hstep := step_of_equal_pixel hk heq
  rw [hrun] at hstep
  by_cases hcap : r = 61
  · rw [if_pos hcap] at hstep
    have hzero : (afterPixels s (k + 1)).enc.run = 0 := by rw [hstep]; rfl
    exact {
      pos := Nat.le_refl _
      le_cap := by omega
      boundary := ⟨hk, .inl hzero⟩
      cache := by rw [hstep]; rfl
      prev := hprev
      pixels := hpixels
      bytes := by rw [hcap]; exact frame_of_step hk hstep
      offset := by rw [flushOffset_of_run_zero hzero, hstep]; rfl }
  · rw [if_neg hcap] at hstep
    have hgrown : (afterPixels s (k + 1)).enc.run = r + 1 := by rw [hstep]; rfl
    have houtLen : (afterPixels s (k + 1)).enc.outLen = (afterPixels s k).enc.outLen := by rw [hstep]; rfl
    have hboundary : opcodeBoundary s (k + 1) := by
      refine ⟨hk, .inr ?_⟩
      rw [hprev]
      exact hend.resolve_left hcap
    have hflush := frame_flush hboundary
    rw [hgrown, houtLen] at hflush
    exact {
      pos := Nat.le_refl _
      le_cap := by omega
      boundary := hboundary
      cache := by rw [hstep]; rfl
      prev := hprev
      pixels := hpixels
      bytes := hflush
      offset := by rw [flushOffset, hgrown, houtLen]; rfl }

/-- Each pixel that equals the previous one is in a RUN of the frame. -/
theorem exists_runOf {s : State} (d : Nat) {k r : Nat} (hk : k < pixelCount s)
    (heq : readPin s k = (afterPixels s k).enc.prev) (hrun : (afterPixels s k).enc.run = r) (hd : r + d = 61) :
    ∃ n, RunOf s k r n := by
  induction d generalizing k r with
  | zero => exact ⟨1, runOf_last hk heq hrun (by omega) (.inl (by omega))⟩
  | succ d ih =>
    by_cases hend : k + 1 = pixelCount s ∨ readPin s (k + 1) ≠ (afterPixels s k).enc.prev
    · exact ⟨1, runOf_last hk heq hrun (by omega) (.inr hend)⟩
    · obtain ⟨hmore, hsame⟩ := not_or.mp hend
      have hprev : (afterPixels s (k + 1)).enc.prev = (afterPixels s k).enc.prev :=
        (prev_afterPixels_succ hk).trans heq
      have hstep := step_of_equal_pixel hk heq
      rw [hrun, if_neg (by omega)] at hstep
      have houtLen : (afterPixels s (k + 1)).enc.outLen = (afterPixels s k).enc.outLen := by rw [hstep]; rfl
      have hcache : (afterPixels s (k + 1)).enc.cache = (afterPixels s k).enc.cache := by rw [hstep]; rfl
      obtain ⟨n, hn⟩ := ih (k := k + 1) (r := r + 1) (by omega) ((Classical.not_not.mp hsame).trans hprev.symm)
        (by rw [hstep]; rfl) (by omega)
      have hshift : k + (n + 1) = k + 1 + n := by omega
      refine ⟨n + 1, ?_⟩
      exact {
        pos := Nat.succ_pos n
        le_cap := by have := hn.le_cap; omega
        boundary := hshift ▸ hn.boundary
        cache := by rw [hshift, hn.cache, hcache]
        prev := by rw [hshift, hn.prev, hprev]
        pixels := fun j hlo hhi => by
          by_cases hj : j = k
          · rw [hj, heq]
          · rw [hn.pixels j (by omega) (by omega), hprev]
        bytes := by
          have hbytes := hn.bytes
          rwa [houtLen, show r + 1 + n = r + (n + 1) by omega] at hbytes
        offset := by rw [hshift, hn.offset, houtLen] }

/-- What the opcode that begins after the first `k` pixels is: `n` pixels long, at the end of the opcodes before it, and
to a decode engine with the encoder's cache and previous pixel a step to those after `n` pixels more. -/
structure NextOpcode (s : State) (k : Nat) (i : Instr) (n : Nat) : Prop where
  wellFormed : i.wellFormed = true
  boundary : opcodeBoundary s (k + n)
  bytes : holdsAt (frameByte s) (flushOffset s k) (encode i)
  offset : flushOffset s (k + n) = flushOffset s k + (encode i).length
  pixels : ∀ j, k ≤ j → j < k + n → readPin s j = (afterPixels s (k + n)).enc.prev
  gives : ∀ u : State, u.dec.cache = (afterPixels s k).enc.cache → u.dec.prev = (afterPixels s k).enc.prev →
    exec i u = .next (put (afterPixels s (k + n)).enc.prev n { u with dec := { u.dec with
      cache := (afterPixels s (k + n)).enc.cache, prev := (afterPixels s (k + n)).enc.prev,
      offset := u.dec.offset + (encode i).length } })

/-- After the end of each opcode but the last, another begins: of one pixel when it differs from the previous one, and
else a RUN. -/
theorem exists_nextOpcode {s : State} {k : Nat} (h : opcodeBoundary s k) (hk : k < pixelCount s) :
    ∃ i n, NextOpcode s k i n := by
  by_cases heq : readPin s k = (afterPixels s k).enc.prev
  · have hrun : (afterPixels s k).enc.run = 0 :=
      h.2.resolve_right (not_or.mpr ⟨by omega, not_not_intro heq⟩)
    obtain ⟨n, hn⟩ := exists_runOf 61 hk heq hrun rfl
    have hpos := hn.pos
    have hcap := hn.le_cap
    have hbytes := hn.bytes
    rw [Nat.zero_add] at hbytes hcap
    refine ⟨.run n, n, ?_⟩
    exact {
      wellFormed := by simp only [Instr.wellFormed, decide_eq_true hpos, decide_eq_true hcap, Bool.and_self]
      boundary := hn.boundary
      bytes := by rw [flushOffset_of_run_zero hrun]; exact hbytes
      offset := by rw [flushOffset_of_run_zero hrun]; exact hn.offset
      pixels := by rw [hn.prev]; exact hn.pixels
      gives := fun u hcache hprev => by
        rw [exec_run, hn.cache, hn.prev, ← hcache, ← hprev]
        rfl }
  · obtain ⟨i, c, hwf, hgives, hstep⟩ := step_of_different_pixel hk heq
    have hprev := prev_afterPixels_succ hk
    have hrun : (afterPixels s (k + 1)).enc.run = 0 := by rw [hstep]; rfl
    have hcache : (afterPixels s (k + 1)).enc.cache = c := by rw [hstep]; rfl
    refine ⟨i, 1, ?_⟩
    exact {
      wellFormed := hwf
      boundary := ⟨hk, .inl hrun⟩
      bytes := (holdsAt_append (frame_of_step hk hstep)).2
      offset := by
        rw [flushOffset_of_run_zero hrun, hstep, emit_enc, List.length_append, flushOffset, Nat.add_assoc]
        rfl
      pixels := fun j hlo hhi => by
        obtain rfl : j = k := by omega
        exact hprev.symm
      gives := by rw [hprev, hcache]; exact hgives }

/-! A decode of the frame -/

/-- IN of `u` holds the frame that the encode of `s` writes, and DEC_INLEN its length. -/
def holdsFrame (s u : State) : Prop :=
  inputLength u = frameLength s ∧ ∀ a, a < inputLength u → readIn u a = frameByte s a

/-- A decode that has read the opcodes of the first PIXCOUNT pixels of `s`: its cache and previous pixel are the encoder's
after them, and the header and the pixels are those of `s` (R207). -/
structure Lockstep (s u : State) : Prop where
  boundary : opcodeBoundary s u.dec.pixCount
  offset : u.dec.offset = flushOffset s u.dec.pixCount
  cache : u.dec.cache = (afterPixels s u.dec.pixCount).enc.cache
  prev : u.dec.prev = (afterPixels s u.dec.pixCount).enc.prev
  pixels : ∀ i, i < u.dec.pixCount → readPout u i = readPin s i
  header : u.dec.width = s.enc.width ∧ u.dec.height = s.enc.height ∧ u.dec.channels = s.enc.channels ∧
    u.dec.colorspace = s.enc.colorspace

/-- What holds of every state of a decode of the frame, phase by phase. -/
inductive RoundTrip (s u : State) : Prop
  | header (hphase : u.dec.phase = .header) (hcount : u.dec.pixCount = 0) (hcache : u.dec.cache = seedCache)
      (hprev : u.dec.prev = opaqueBlack)
  | stream (hphase : u.dec.phase = .stream) (h : Lockstep s u)
  | tail (hphase : u.dec.phase = .marker ∨ u.dec.phase = .doneOk) (h : Lockstep s u)
      (hall : u.dec.pixCount = pixelCount s)

/-- Bytes that end where the frame's opcodes do, or before, are IN's. -/
theorem holdsFrame.holdsAt {s u : State} (h : holdsFrame s u) {a : Nat} {v : List Byte}
    (hv : holdsAt (frameByte s) a v) (hend : a + v.length ≤ frameLength s) : holdsAt (readIn u) a v := by
  intro k hk
  rw [h.2 (a + k) (by rw [h.1]; omega)]
  exact hv k hk

/-- No turn of the decode engine changes IN or its length. -/
theorem holdsFrame.turn {s u t : State} (h : holdsFrame s u) (hturn : decTurn u = .next t) : holdsFrame s t := by
  rw [(decTurnTo_of_decTurn hturn).frame]
  exact h

/-- The header step of a decode of the frame: the fields of the encode, at the seeds of both engines (R139, R161). -/
theorem roundTrip_header {s u : State} (hframe : holdsFrame s u) (hphase : u.dec.phase = .header)
    (hcount : u.dec.pixCount = 0) (hcache : u.dec.cache = seedCache) (hprev : u.dec.prev = opaqueBlack) :
    ∃ t, decTurn u = .next t ∧ RoundTrip s t := by
  have hoffset : flushOffset s 0 = 14 := rfl
  have hlen : 14 ≤ frameLength s := by
    have hmono := flushOffset_mono (s := s) (Nat.zero_le _) (Nat.le_refl _)
    rw [frameLength_eq]
    omega
  have hbytes := hframe.holdsAt (frame_header s) (by rw [headerBytes_length]; omega)
  have hparse := parseHeader_headerBytes (rd := readIn u) (n := inputLength u) (by rw [hframe.1]; exact hlen)
    fun k hk => by
      have hk' := hbytes k hk
      rwa [Nat.zero_add] at hk'
  refine ⟨_, (decTurn_of_header hphase).trans (congrArg _ (decHeaderStep_of_ok hparse)), .stream rfl ?_⟩
  exact {
    boundary := by
      show opcodeBoundary s u.dec.pixCount
      rw [hcount]
      exact ⟨Nat.zero_le _, .inl rfl⟩
    offset := by
      show 14 = flushOffset s u.dec.pixCount
      rw [hcount, hoffset]
    cache := by
      show u.dec.cache = (afterPixels s u.dec.pixCount).enc.cache
      rw [hcache, hcount]
      rfl
    prev := by
      show u.dec.prev = (afterPixels s u.dec.pixCount).enc.prev
      rw [hprev, hcount]
      rfl
    pixels := fun i hi => absurd hi (by rw [hcount]; exact Nat.not_lt_zero i)
    header := ⟨rfl, rfl, rfl, rfl⟩ }

/-- An opcode step of a decode in lockstep reads the encoder's next opcode (R207). -/
theorem Lockstep.opcode_step {s u : State} (h : Lockstep s u) (hframe : holdsFrame s u)
    (hphase : u.dec.phase = .stream) (hlt : u.dec.pixCount < pixelCount s) :
    ∃ t, decTurn u = .next t ∧ RoundTrip s t := by
  obtain ⟨i, n, hnext⟩ := exists_nextOpcode h.boundary hlt
  have hlength := (encode_length_bounds i).1
  have hmono := flushOffset_mono hnext.boundary.1 (Nat.le_refl _)
  have hend := hnext.offset
  have htotal := frameLength_eq s
  have hbytes := hframe.holdsAt hnext.bytes (by omega)
  rw [← h.offset] at hbytes
  have hloop : u.dec.offset + 8 < inputLength u := by
    rw [h.offset, hframe.1]
    omega
  refine ⟨_, (decTurn_of_opcode hphase hloop).trans ((decOpcodeStep_of_encode hnext.wellFormed hloop hbytes).trans
    (hnext.gives u h.cache h.prev)), .stream hphase ?_⟩
  exact {
    boundary := hnext.boundary
    offset := (congrArg (· + (encode i).length) h.offset).trans hend.symm
    cache := rfl
    prev := rfl
    pixels := fun j hj => by
      rw [readPout_put]
      split
      next hnew => exact (hnext.pixels j hnew.1 hnew.2).symm
      next hold => exact h.pixels j (by
        have hj' : j < u.dec.pixCount + n := hj
        have hold' : ¬ (u.dec.pixCount ≤ j ∧ j < u.dec.pixCount + n) := hold
        omega)
    header := h.header }

/-- After the last opcode the loop has reached its bound (R192). -/
theorem Lockstep.loopEnd_step {s u : State} (h : Lockstep s u) (hframe : holdsFrame s u)
    (hphase : u.dec.phase = .stream) (hall : u.dec.pixCount = pixelCount s) :
    ∃ t, decTurn u = .next t ∧ RoundTrip s t := by
  have hend : inputLength u ≤ u.dec.offset + 8 :=
    Nat.le_of_eq (by rw [hframe.1, h.offset, hall, frameLength_eq])
  exact ⟨_, decTurn_of_loopEnd hphase hend,
    .tail (.inl rfl) ⟨h.boundary, h.offset, h.cache, h.prev, h.pixels, h.header⟩ hall⟩

/-- The marker is all that remains after the last opcode (R140, R142). -/
theorem Lockstep.marker_step {s u : State} (h : Lockstep s u) (hframe : holdsFrame s u)
    (hphase : u.dec.phase = .marker) (hall : u.dec.pixCount = pixelCount s) :
    ∃ t, decTurn u = .next t ∧ RoundTrip s t := by
  have hoffset : u.dec.offset = flushOffset s (pixelCount s) := by rw [h.offset, hall]
  have hend := frameLength_eq s
  have hmarker := hframe.holdsAt (frame_marker s) (Nat.le_of_eq hend.symm)
  rw [← hoffset] at hmarker hend
  have hok := (markerOk_iff (readIn u) u.dec.offset (inputLength u)).mpr ⟨hframe.1.trans hend, hmarker⟩
  exact ⟨_, (decTurn_of_marker hphase).trans (congrArg _ (decMarkerStep_of_ok hok)),
    .tail (.inr rfl) ⟨h.boundary, h.offset, h.cache, h.prev, h.pixels, h.header⟩ hall⟩

/-- Every turn of a decode of the frame keeps the round trip. -/
theorem RoundTrip.turn {s u t : State} (h : RoundTrip s u) (hframe : holdsFrame s u) (hturn : decTurn u = .next t) :
    RoundTrip s t := by
  suffices hnext : ∃ t', decTurn u = .next t' ∧ RoundTrip s t' by
    obtain ⟨t', hturn', ht'⟩ := hnext
    cases hturn.symm.trans hturn'
    exact ht'
  cases h with
  | header hphase hcount hcache hprev => exact roundTrip_header hframe hphase hcount hcache hprev
  | stream hphase h =>
    obtain hlt | hall := Nat.lt_or_eq_of_le h.boundary.1
    · exact h.opcode_step hframe hphase hlt
    · exact h.loopEnd_step hframe hphase hall
  | tail hphase h hall =>
    obtain hphase | hphase := hphase
    · exact h.marker_step hframe hphase hall
    · exact ⟨u, decTurn_of_not_busy (by simp [decBusy, hphase]), .tail (.inr hphase) h hall⟩

/-- What every turn of the decode engine keeps, a run of it keeps. -/
theorem decRun_keeps {P : State → Prop} (hkeeps : ∀ u t, P u → decTurn u = .next t → P t) (k : Nat) {u t : State}
    (hu : P u) (hrun : decRun k u = .next t) : P t := by
  induction k generalizing u with
  | zero => cases hrun; exact hu
  | succ k ih =>
    obtain ⟨v, hturn, -⟩ := exists_decTurnTo u
    exact ih (hkeeps u v hu hturn) ((decRun_succ k hturn).symm.trans hrun)

/-- Every state of a decode of the frame, from START on. -/
theorem roundTrip_decRun {s d : State} (hframe : holdsFrame s d) {k : Nat} {u : State}
    (hrun : decRun k (decStart d) = .next u) : RoundTrip s u :=
  (decRun_keeps (P := fun u => holdsFrame s u ∧ RoundTrip s u)
    (fun _ _ ⟨hf, hr⟩ hturn => ⟨hf.turn hturn, hr.turn hf hturn⟩) k (u := decStart d)
    ⟨hframe, .header rfl rfl rfl rfl⟩ hrun).2

/-- Settles O59: in STREAM the round trip is the lockstep. -/
theorem cachesEvolveInLockstep : Obligations.CachesEvolveInLockstep := by
  intro s d hlen hbytes j u hrun hphase
  cases roundTrip_decRun ⟨hlen, hbytes⟩ hrun with
  | header h => exact nomatch hphase.symm.trans h
  | stream _ h => exact ⟨h.boundary.1, h.cache, h.prev⟩
  | tail h => obtain h | h := h <;> exact nomatch hphase.symm.trans h

/-- Settles O60: the decode ends, and of the two ends the round trip leaves DONE_OK only. -/
theorem decodeOfAnEncodedFrameGivesThePixelsBack : Obligations.DecodeOfAnEncodedFrameGivesThePixelsBack := by
  intro s d hlen hbytes
  obtain ⟨k, u, -, hrun, hend, -⟩ := everyDecodeEnds d
  cases roundTrip_decRun ⟨hlen, hbytes⟩ hrun with
  | header h => obtain hend | hend := hend <;> exact nomatch hend.symm.trans h
  | stream h => obtain hend | hend := hend <;> exact nomatch hend.symm.trans h
  | tail hphase h hall =>
    obtain hend | hend := hend
    · have hpixels := h.pixels
      rw [hall] at hpixels
      exact ⟨k, u, hrun, hend, hall, hpixels, h.header⟩
    · obtain hphase | hphase := hphase <;> exact nomatch hend.symm.trans hphase

end Sys2Proof.Machine
end
